-- ==== Sys2Proof/Word.lean ====
section
/-! DEFINITION. The word types of the LZSS CORE and the sizes its source fixes (00_scope.md R7, R10). -/

namespace Sys2Proof

/-- The unit of every stream and of every window access (R7). -/
abbrev Byte := BitVec 8

/-- A window index: 12 bits, `[0, W)` (R7 `OFFSET_BITS`, R21). Its addition wraps modulo `W` (R59). -/
abbrev Index := BitVec 12

/-- Window capacity in bytes (R7). -/
abbrev W : Nat := 4096

/-- Shortest match a token can carry (R7). -/
abbrev minLen : Nat := 3

/-- Longest match a token can carry, and the longest lookahead (R7). -/
abbrev maxLen : Nat := 18

/-- Tokens of a full block (R7). -/
abbrev blockTokens : Nat := 8

end Sys2Proof
end

