-- ==== Sys2Proof/Config.lean ====
section
/-! DEFINITION. What is fixed for the life of the machine (00_scope.md R8, 10_state.md R37), the answers a
collaborator can give (10_state.md R35, R36), and the free values: constants with no body, of which nothing can
be proved. -/

namespace Sys2Proof

/-- The configuration inputs of R8 and R37: the same for both units, changed by no step. State carries them so
that one machine covers both flag orders and every `P0`. DESIGN CHOICE (log 1), safe. -/
structure Config where
  /-- `FLAG_REVERSED` (R84): the legacy reversed flag-bit order on the wire. -/
  flagReversed : Bool
  /-- `P0` (R8): the reset value of both Window pointers. -/
  p0 : Index
  deriving DecidableEq, Repr

/-- A collaborator's error value, passed through unchanged (R8 `ErrCode`, R170). The spec leaves the type open;
the model takes an opaque token that no operation looks into. DESIGN CHOICE (log 2), safe. -/
structure ErrCode where
  token : Nat
  deriving DecidableEq, Repr, Inhabited

/-- What one `SourceRead()` answers (R35). -/
inductive SourceAnswer where
  /-- `Byte(b)`: the next byte of the stream, consumed. -/
  | byte (b : Byte)
  /-- `EOF`: the source's own end-of-data condition. -/
  | eof
  /-- `Err(e)`: a source I/O error. -/
  | err (e : ErrCode)
  deriving DecidableEq, Repr, Inhabited

/-- What one `SinkWrite(s)` answers (R36). -/
inductive SinkAnswer where
  /-- `Ok`: the bytes are appended to the sink's stream. -/
  | ok
  /-- `Err(e)`: a sink I/O error. -/
  | err (e : ErrCode)
  deriving DecidableEq, Repr, Inhabited

/-- The free answer of the source to its `n`-th unscripted read (I7: a draw under no law; log 3). -/
opaque Config.sourceDraw : Nat → SourceAnswer

/-- The free answer of the sink to its `n`-th unscripted write, which may depend on the bytes written
(I8: a draw under no law; log 3). -/
opaque Config.sinkDraw : Nat → List Byte → SinkAnswer

/-- The unspecified value of `enc.info` after an ENC_RESET (I11, R191; log 5). -/
opaque Config.encInfoDraw : Nat → ErrCode

/-- The unspecified value of `dec.info` after a DEC_RESET (I11, R192; log 5). -/
opaque Config.decInfoDraw : Nat → ErrCode

end Sys2Proof
end

