-- ==== Sys2Proof/Syntax.lean ====
section
/-! DEFINITION. The instructions of the LZSS CORE: one constructor per row of spec/opcode_table.json (host
commands 30_encoding.md R78, illegal words R80, wire units R71 to R73, Window port operations R81). A companion
that travels beside an encoded word (the data of ENC_WRITE, the operand lines of a Window port) is an argument. -/

namespace Sys2Proof

/-- The two Window instances (R20): `we` is the Encoder's, `wd` the Decoder's. -/
inductive WinId where
  | we
  | wd
  deriving DecidableEq, Repr

/-- The instructions, in the table's order. -/
inductive Instr where
  /-- ENC_WRITE (R120): `n` is the count field `N`, `data` the companion input bytes. -/
  | encWrite (n : BitVec 16) (data : List Byte)
  /-- ENC_CLOSE (R127). -/
  | encClose
  /-- DEC_READ (R140): `cap` is the capacity of the host's output buffer, field `N`. -/
  | decRead (cap : BitVec 16)
  /-- DEC_CLOSE (R151). -/
  | decClose
  /-- ILLEGAL_CMD (R185): a command word that is no command, by its three fields `N`, `RSV`, `OP`. -/
  | illegalCmd (n : BitVec 16) (rsv : BitVec 12) (op : BitVec 4)
  /-- FLAGS (R71, R143): the flag byte as it stands on the wire. -/
  | flags (t : Byte)
  /-- LIT (R72, R145): the literal byte. -/
  | lit (d : Byte)
  /-- MATCH (R73, R74, R146): the absolute offset and the length, 3 to 18. -/
  | matchTok (off : Index) (len : BitVec 5)
  /-- WIN_FIND (R100) on Window `x`: the lookahead. -/
  | winFind (x : WinId) (la : List Byte)
  /-- WIN_READ (R102) on Window `x`: the index; 12 bits in the hardware, wider here so that the out-of-range
  check of R102 has something to check. -/
  | winRead (x : WinId) (idx : Nat)
  /-- WIN_WRITE (R103) on Window `x`: the byte. -/
  | winWrite (x : WinId) (b : Byte)
  /-- WIN_WRITES (R104) on Window `x`: the bytes. -/
  | winWrites (x : WinId) (bs : List Byte)
  deriving DecidableEq, Repr

end Sys2Proof
end

