-- ==== Sys2Proof/WellFormed.lean ====
section
/-! DEFINITION. Which terms of Instr some encoding of the spec stands for: the operand domains of 30_encoding.md
R74, R76, R80, R81. -/

namespace Sys2Proof

/-- R80: a command word with these fields is not a command. -/
def isIllegal (n : BitVec 16) (rsv : BitVec 12) (op : BitVec 4) : Bool :=
  rsv != 0 || !(op == 1 || op == 2 || op == 3 || op == 4) || ((op == 2 || op == 4) && n != 0)

/-- An instruction is well formed when its operands lie in the domains its encoding gives them. -/
def Instr.wf : Instr → Bool
  | .encWrite n data => data.length == n.toNat          -- R76: |data| = N
  | .encClose => true
  | .decRead _ => true
  | .decClose => true
  | .illegalCmd n rsv op => isIllegal n rsv op          -- R80
  | .flags _ => true                                    -- R82: every flag byte is valid
  | .lit _ => true
  | .matchTok _ len => decide (minLen ≤ len.toNat) && decide (len.toNat ≤ maxLen)   -- R74
  | .winFind _ la => decide (la.length ≤ maxLen)        -- R81: 0 to 18 bytes
  | .winRead _ idx => decide (idx < W)                  -- R81: 12 bits in the hardware
  | .winWrite _ _ => true
  | .winWrites _ bs => decide (bs.length ≤ maxLen)      -- R81 1 to 18 bytes; R104 gives [] its meaning too

end Sys2Proof
end

