-- ==== Sys2Proof/Decode.lean ====
section
/-! DEFINITION. The three encoded surfaces of the LZSS CORE (30_encoding.md): the command word with its data
(R76, R78, R80), the wire (R71 to R75), the Window port (R81). The decoder first, then the encoder, then the
adapter that reads a row of spec/opcode_table.json from a number. -/

namespace Sys2Proof

/-! ### Fields of the command word (R76) -/

/-- `OP`, bits 3..0. -/
def cmdOp (w : BitVec 32) : BitVec 4 := w.extractLsb' 0 4

/-- `RSV`, bits 15..4. -/
def cmdRsv (w : BitVec 32) : BitVec 12 := w.extractLsb' 4 12

/-- `N`, bits 31..16. -/
def cmdN (w : BitVec 32) : BitVec 16 := w.extractLsb' 16 16

/-- The word with these fields. -/
def cmdWord (n : BitVec 16) (rsv : BitVec 12) (op : BitVec 4) : BitVec 32 := n ++ rsv ++ op

/-! ### Fields of a MATCH token (R73, R74) -/

/-- `offset = (zext_12(b1[7:4]) << 8) | zext_12(b0)` (R74; 90_conflicts.md C1). -/
def matchOffset (b0 b1 : Byte) : Index :=
  ((b1.extractLsb' 4 4).setWidth 12 <<< 8) ||| b0.setWidth 12

/-- `length = zext_5(b1[3:0]) + 3` (R74). -/
def matchLength (b1 : Byte) : BitVec 5 := (b1.extractLsb' 0 4).setWidth 5 + 3

/-- `b0 = offset & 0xFF` (R74). -/
def matchLow (off : Index) : Byte := (off &&& 0x0FF).setWidth 8

/-- `b1 = ((offset & 0xF00) >> 4) | (length - 3)` (R74). -/
def matchHigh (off : Index) (len : BitVec 5) : Byte :=
  ((off &&& 0xF00) >>> 4).setWidth 8 ||| (len - 3).setWidth 8

/-! ### What is decoded -/

/-- What the Decoder's flag register says the next source bytes are (R75). -/
inductive WireKind where
  /-- `dec.freg = 1`: a flag byte. -/
  | flagByte
  /-- ConsumeBit, flag bit 1: a Literal. -/
  | literal
  /-- ConsumeBit, flag bit 0: a Match. -/
  | matching
  deriving DecidableEq, Repr

/-- R75, R144: the flag register selects the kind. -/
def wireKind (freg : BitVec 9) : WireKind :=
  if freg = 1 then .flagByte else if freg.getLsbD 0 then .literal else .matching

/-- The lines of a Window port going in (R81): the 2-bit operation code and the operand lines, of which each
operation takes its own. -/
structure WinRequest where
  op : BitVec 2
  /-- `la` of WIN_FIND, `s` of WIN_WRITES. -/
  bytes : List Byte
  /-- `idx` of WIN_READ. -/
  idx : Nat
  /-- `b` of WIN_WRITE. -/
  byte : Byte
  deriving DecidableEq, Repr

/-- One encoded instruction, on the surface it arrives on. -/
inductive Fetched where
  /-- The command port: a 32-bit word and the data that came with it (R76). -/
  | cmd (w : BitVec 32) (data : List Byte)
  /-- The wire: the kind the flag register selects, and source bytes (R75). -/
  | wire (k : WireKind) (bytes : List Byte)
  /-- The port of a Window (R81). -/
  | winop (x : WinId) (r : WinRequest)
  deriving DecidableEq, Repr

/-- Why bytes of the wire are no instruction. -/
inductive Reject where
  /-- No byte is left where a unit would start. -/
  | noByte
  /-- A Match whose second byte is missing (R148). -/
  | truncatedMatch
  deriving DecidableEq, Repr

/-! ### Decoder -/

/-- R78, R80: every command word has a meaning; a word that is not a command is ILLEGAL_CMD, and its data is
ignored (R185). Data beside a word other than ENC_WRITE is ignored too (DEDUCED, log 15). -/
def decodeCmd (w : BitVec 32) (data : List Byte) : Instr :=
  if cmdRsv w = 0 ∧ cmdOp w = 1 then .encWrite (cmdN w) data
  else if cmdRsv w = 0 ∧ cmdOp w = 2 ∧ cmdN w = 0 then .encClose
  else if cmdRsv w = 0 ∧ cmdOp w = 3 then .decRead (cmdN w)
  else if cmdRsv w = 0 ∧ cmdOp w = 4 ∧ cmdN w = 0 then .decClose
  else .illegalCmd (cmdN w) (cmdRsv w) (cmdOp w)

/-- R71 to R75: the next unit of the wire and the bytes after it. -/
def decodeWire : WireKind → List Byte → Except Reject (Instr × List Byte)
  | .flagByte, t :: rest => .ok (.flags t, rest)
  | .literal, d :: rest => .ok (.lit d, rest)
  | .matching, b0 :: b1 :: rest => .ok (.matchTok (matchOffset b0 b1) (matchLength b1), rest)
  | .matching, [_] => .error .truncatedMatch
  | _, [] => .error .noByte

/-- R81: every operation code names an operation. -/
def decodeWinop (x : WinId) (r : WinRequest) : Instr :=
  if r.op = 0b00 then .winFind x r.bytes
  else if r.op = 0b01 then .winRead x r.idx
  else if r.op = 0b10 then .winWrite x r.byte
  else .winWrites x r.bytes

/-- The decoder of all three surfaces; total, rejecting by name. -/
def decode : Fetched → Except Reject Instr
  | .cmd w data => .ok (decodeCmd w data)
  | .wire k bytes => (decodeWire k bytes).map Prod.fst
  | .winop x r => .ok (decodeWinop x r)

/-! ### Encoder -/

/-- The encoding of an instruction, from the same tables (R74, R76, R78, R81). -/
def encode : Instr → Fetched
  | .encWrite n data => .cmd (cmdWord n 0 1) data
  | .encClose => .cmd (cmdWord 0 0 2) []
  | .decRead cap => .cmd (cmdWord cap 0 3) []
  | .decClose => .cmd (cmdWord 0 0 4) []
  | .illegalCmd n rsv op => .cmd (cmdWord n rsv op) []
  | .flags t => .wire .flagByte [t]
  | .lit d => .wire .literal [d]
  | .matchTok off len => .wire .matching [matchLow off, matchHigh off len]
  | .winFind x la => .winop x ⟨0b00, la, 0, 0⟩
  | .winRead x idx => .winop x ⟨0b01, [], idx, 0⟩
  | .winWrite x b => .winop x ⟨0b10, [], 0, b⟩
  | .winWrites x bs => .winop x ⟨0b11, bs, 0, 0⟩

/-! ### The opcode table's words -/

/-- A Window port request with this operation code and every operand line zero. -/
def zeroRequest (op : Nat) : WinRequest := ⟨BitVec.ofNat 2 op, [], 0, 0⟩

/-- The Window whose owner issues this operation (R50): WIN_FIND and WIN_WRITES are the Encoder's, WIN_READ and
WIN_WRITE the Decoder's. -/
def zeroRequestWindow (op : Nat) : WinId := if op = 1 ∨ op = 2 then .wd else .we

/-- The command a table word stands for: its data, where ENC_WRITE takes `N` bytes, is `N` zero bytes. -/
def tableCmdData (w : BitVec 32) : List Byte :=
  if cmdOp w = 1 then List.replicate (cmdN w).toNat 0 else []

/-- The two bytes of a 16-bit table word in wire order, the first in bits 7..0. -/
def tableMatchBytes (w : Nat) : List Byte := [BitVec.ofNat 8 w, BitVec.ofNat 8 (w / 256)]

/-- The instruction of a table word. 32 bits are a command word, 16 bits a MATCH. Eight bits alone do not say
their kind (R75): values 0 to 3 are taken as the four 2-bit rows of the Window port, every other value as the
unit the wire expects after reset, FLAGS. DESIGN CHOICE (log 12). -/
def decodeTableWord (nbits w : Nat) : Option Instr :=
  if nbits = 32 then some (decodeCmd (BitVec.ofNat 32 w) (tableCmdData (BitVec.ofNat 32 w)))
  else if nbits = 16 then
    match decodeWire .matching (tableMatchBytes w) with
    | .ok (i, _) => some i
    | .error _ => none
  else if nbits = 8 ∨ nbits = 2 then
    if w < 4 then some (decodeWinop (zeroRequestWindow w) (zeroRequest w))
    else
      match decodeWire .flagByte [BitVec.ofNat 8 w] with
      | .ok (i, _) => some i
      | .error _ => none
  else none

end Sys2Proof
end

