-- ==== Sys2Proof/Machine/State.lean ====
section
/-! DEFINITION. The state of the LZSS CORE (10_state.md R20 to R42): the two Windows, the Encoder, the Decoder,
and the ports and collaborators at their interface; why a step can stop; the state after reset (R41). -/

namespace Sys2Proof.Machine

open Sys2Proof

/-- Why a step faults. -/
inductive Fault where
  /-- `Fault(OUT_OF_RANGE)` (R102, R171): raised by WIN_READ when its index is not below `W`. Only a WIN_READ
  executed by itself shows it; inside a Match replay the Decoder turns it into CORRUPT (R150). The spec's own
  fault: safe. -/
  | outOfRange
  deriving DecidableEq, Repr

/-- Why a step is refused: the spec's `refuse(reason)` (R13), for inputs no host can present. -/
inductive Refusal where
  /-- An instruction that has no meaning in this model, by its mnemonic; raised by exec's arm only. Safe. -/
  | notModelled (mnemonic : String)
  /-- R13, R76, I15: an ENC_WRITE whose data length differs from its count field; raised by ENC_WRITE. Safe. -/
  | dataLengthMismatch
  /-- R13, R100, I16: a lookahead longer than `MAXLEN`; raised by WIN_FIND. Safe. -/
  | lookaheadTooLong
  deriving DecidableEq, Repr

/-! ### Window (R20 to R23) -/

/-- The storage of a Window: address and byte pairs, addresses strictly rising, no entry equal to what an
unlisted address reads as. -/
abbrev Memory := List Host.Cell

/-- What an unlisted address reads as: the spec's reset contents (R20, R41). -/
def Memory.unlisted : Byte := 0x00

/-- The canonical form. -/
def Memory.wf : Memory → Bool
  | [] => true
  | [(_, v)] => v != Memory.unlisted
  | (k, v) :: (k', v') :: m => v != Memory.unlisted && decide (k < k') && Memory.wf ((k', v') :: m)

/-- A Window instance (R20, R21, R22). -/
structure Window where
  /-- `X.buf`: `W` bytes. -/
  buf : Memory
  /-- `X.ptr`: index of the next slot to be overwritten. -/
  ptr : Index
  /-- `X.fill`: bytes written since reset, saturating at `W`; 13 bits, range `[0, W]`. -/
  fill : Fin (W + 1)
  deriving DecidableEq, Repr

/-- The results a Window operation puts on its port (R81). -/
inductive WinResult where
  /-- WIN_FIND: `len` (5 bits) and `off` (12 bits). -/
  | found (len : BitVec 5) (off : Index)
  /-- WIN_READ: the byte and the advanced index. -/
  | read (b : Byte) (idx : Index)
  deriving DecidableEq, Repr

/-- The port of a Window (R81): the request its owning unit drives, and the results of the last operation that
was requested there. No host input reaches it (log 8). -/
structure WinPort where
  req : Option WinRequest
  res : Option WinResult
  deriving DecidableEq, Repr

/-! ### Status codes and responses (R77, R79) -/

/-- The status codes of a response; codes 7 to 15 are never produced (I13). -/
inductive Status where
  | ok
  | endOfStream
  | closed
  | sourceErr
  | sinkErr
  | corrupt
  | illegalCmd
  deriving DecidableEq, Repr

/-- A response (R77): the fields of the RSP word, whose bits 15..4 are always 0, with the companions `out` and
`info`. -/
structure Response where
  status : Status
  count : BitVec 16
  out : List Byte
  info : Option ErrCode
  deriving DecidableEq, Repr

/-! ### Encoder (R24 to R28) -/

/-- The legal values of `enc.st` (R24; log 16). -/
inductive EncStatus where
  | ok
  | closed
  | sinkErr
  deriving DecidableEq, Repr

structure Encoder where
  /-- `enc.st` (R24). -/
  st : EncStatus
  /-- `enc.info` (R24): the sink's error value while `st` is `sinkErr`. -/
  info : ErrCode
  /-- `enc.flags` (R25). -/
  flags : BitVec 8
  /-- `enc.ntok` (R26). -/
  ntok : BitVec 4
  /-- `enc.stage` (R27). -/
  stage : List Byte
  deriving DecidableEq, Repr

/-! ### Decoder (R29 to R32) -/

/-- The legal values of `dec.st` (R29; log 16). -/
inductive DecStatus where
  | ok
  | endOfStream
  | closed
  | sourceErr
  | corrupt
  deriving DecidableEq, Repr

structure Decoder where
  /-- `dec.st` (R29). -/
  st : DecStatus
  /-- `dec.info` (R29): the source's error value while `st` is `sourceErr`. -/
  info : ErrCode
  /-- `dec.freg` (R30): the unconsumed flag bits under a sentinel bit. -/
  freg : BitVec 9
  /-- `dec.carry` (R31): decoded bytes not yet delivered, oldest first. -/
  carry : List Byte
  deriving DecidableEq, Repr

/-- The capacity and the output of the DEC_READ in progress. R38 calls them local to the command: the model's
own field, cleared when the command ends (log 7). -/
structure ReadContext where
  cap : Nat
  out : List Byte
  deriving DecidableEq, Repr

/-- Why a command fails or ends (R170, R175). -/
inductive Failure where
  /-- A `SinkWrite` answered `Err(e)` (R128). -/
  | sink (e : ErrCode)
  /-- A `SourceRead` answered `Err(e)` (R149). -/
  | source (e : ErrCode)
  /-- A `SourceRead` answered `EOF` (R148); not an error. -/
  | endOfSource
  /-- WIN_READ faulted during a replay (R150). -/
  | corrupt
  deriving DecidableEq, Repr

/-! ### Collaborators (R35, R36) and the host's port (R174) -/

/-- The byte sink at its interface. -/
structure Sink where
  /-- The answers it is going to give, oldest first; after them each answer is a free value (log 3). -/
  answers : List SinkAnswer
  /-- Free values drawn so far (log 6). -/
  draws : Nat
  /-- The blocks it accepted with `Ok` since it was attached, oldest first (R134; log 11). -/
  blocks : List (List Byte)
  deriving DecidableEq, Repr

/-- The byte source at its interface. -/
structure Source where
  /-- The answers it is going to give, oldest first; after them each answer is a free value (log 3). -/
  answers : List SourceAnswer
  /-- Free values drawn so far (log 6). -/
  draws : Nat
  /-- Bytes consumed since it was attached: the source's position (R34, R35). -/
  pos : Nat
  deriving DecidableEq, Repr

/-- What the outside presents (R174, R190). -/
inductive HostInput where
  /-- A command word with the data that comes with it (R76). -/
  | command (w : BitVec 32) (data : List Byte)
  /-- The reset input ENC_RESET, attaching a sink that is going to give these answers (R190, R191). -/
  | encReset (answers : List SinkAnswer)
  /-- The reset input DEC_RESET, attaching a source that is going to give these answers (R190, R192). -/
  | decReset (answers : List SourceAnswer)
  deriving DecidableEq, Repr

/-- The host's side of the block (R174): the inputs it presents, taken one a step (log 9), and the responses
it has been given, one a command, oldest first (log 10). -/
structure HostPort where
  pending : List HostInput
  responses : List Response
  deriving DecidableEq, Repr

/-- The machine. -/
structure State where
  cfg : Config
  we : Window
  wd : Window
  wePort : WinPort
  wdPort : WinPort
  enc : Encoder
  dec : Decoder
  read : ReadContext
  sink : Sink
  source : Source
  port : HostPort
  deriving DecidableEq, Repr

/-- Where a part of a command leaves the machine: going on, or with the command ended and its response given
(`respond` of R12 ends the command). -/
inductive Flow where
  | goOn (s : State)
  | ended (s : State)
  deriving DecidableEq, Repr

/-! ### Reset values (R41) -/

/-- A Window after reset: every byte 0x00, pointer `P0`, fill 0 (R20, R21, R22). -/
def Window.reset (p0 : Index) : Window := { buf := [], ptr := p0, fill := 0 }

/-- A Window port with nothing driven. DESIGN CHOICE (log 8). -/
def WinPort.idle : WinPort := { req := none, res := none }

/-- The Encoder after reset (R41, R191); the spec leaves `enc.info` unspecified. -/
def Encoder.reset (info : ErrCode) : Encoder := { st := .ok, info := info, flags := 0x00, ntok := 0, stage := [] }

/-- The Decoder after reset (R41, R192); the spec leaves `dec.info` unspecified. -/
def Decoder.reset (info : ErrCode) : Decoder := { st := .ok, info := info, freg := 0x001, carry := [] }

/-- No DEC_READ in progress. DESIGN CHOICE (log 7). -/
def ReadContext.idle : ReadContext := { cap := 0, out := [] }

/-- The machine at power-up, when both reset inputs are asserted (R190, R41). The spec states no value for
`enc.info` and `dec.info`: DESIGN CHOICE error value 0 (log 5), unsafe. The ports are empty and the
collaborators' lists too (logs 3, 6, 9, 10, 11). -/
def State.reset : State :=
  { cfg := { flagReversed := false, p0 := 0 }
    we := Window.reset 0
    wd := Window.reset 0
    wePort := WinPort.idle
    wdPort := WinPort.idle
    enc := Encoder.reset ⟨0⟩
    dec := Decoder.reset ⟨0⟩
    read := ReadContext.idle
    sink := { answers := [], draws := 0, blocks := [] }
    source := { answers := [], draws := 0, pos := 0 }
    port := { pending := [], responses := [] } }

end Sys2Proof.Machine
end

