-- ==== Sys2Proof/Machine/Ops.lean ====
section
/-! DEFINITION. The named operations over the machine's storage: Window memory, the four Window operations
(40_window.md R100 to R108), the collaborators (10_state.md R35, R36), responses (30_encoding.md R77), the one
way a command fails (60_exceptions.md R175), reset (70_reset_and_hazards.md R190 to R192), and what a step takes
next (60_exceptions.md R174). -/

namespace Sys2Proof.Machine

open Sys2Proof

/-! ### Memory -/

/-- The byte at an address. -/
def Memory.read : Memory → Nat → Byte
  | [], _ => Memory.unlisted
  | (k, v) :: m, a => if a < k then Memory.unlisted else if a = k then v else Memory.read m a

/-- Put a byte at the head of a memory whose addresses are all higher, keeping the canonical form. -/
def Memory.cons (a : Nat) (b : Byte) (m : Memory) : Memory :=
  if b = Memory.unlisted then m else (a, b) :: m

/-- The memory with a byte stored at an address, in canonical form. -/
def Memory.write : Memory → Nat → Byte → Memory
  | [], a, b => Memory.cons a b []
  | (k, v) :: m, a, b =>
    if a < k then Memory.cons a b ((k, v) :: m)
    else if a = k then Memory.cons a b m
    else (k, v) :: Memory.write m a b

/-! ### Window operations -/

/-- WIN_READ (R102): faults outside `[0, W)`; the byte and the advanced index. -/
def Window.readByte (x : Window) (idx : Nat) : Except Fault (Byte × Nat) :=
  if W ≤ idx then .error .outOfRange else .ok (x.buf.read idx, (idx + 1) % W)

/-- WIN_WRITE (R103). -/
def Window.writeByte (x : Window) (b : Byte) : Window :=
  { buf := x.buf.write x.ptr.toNat b
    ptr := x.ptr + 1
    fill := ⟨min (x.fill.val + 1) W, by omega⟩ }

/-- WIN_WRITES (R104): one WIN_WRITE a byte, in order. -/
def Window.writeBytes (x : Window) : List Byte → Window
  | [] => x
  | b :: bs => (x.writeByte b).writeBytes bs

/-- The walk of R100 from candidate `p` at distance `d`: how far the rest of the lookahead agrees, `L` bytes of
it having agreed already, never reading the slot at the pointer (`L < d`). -/
def Window.walk (x : Window) (p d : Nat) : List Byte → Nat → Nat
  | [], L => L
  | b :: la, L => if L < d ∧ x.buf.read ((p + L) % W) = b then x.walk p d la (L + 1) else L

/-- The best candidate of the search so far (R100): `bestLen`, `bestOff`, `bestDist`. -/
structure Best where
  len : Nat
  off : Nat
  dist : Nat
  deriving DecidableEq, Repr

/-- The candidate start position at distance `d` (R100): `(X.ptr - d) mod W`. -/
def Window.candidate (x : Window) (d : Nat) : Nat := (x.ptr.toNat + W - d) % W

/-- The search of R100 over `n` distances from `d` up, most recent first: a strictly longer walk replaces the
best, and a best of `MAXLEN` ends the search. -/
def Window.search (x : Window) (la : List Byte) : Nat → Nat → Best → Best
  | 0, _, best => best
  | n + 1, d, best =>
    let p := x.candidate d
    let L := x.walk p d la 0
    let best' : Best := if best.len < L then ⟨L, p, d⟩ else best
    if best'.len = maxLen then best' else x.search la n (d + 1) best'

/-- The self-overlap extension of R100: how far the rest of the lookahead goes on agreeing with the matched
region read cyclically, `j` bytes having agreed. -/
def Window.extend (x : Window) (off dist : Nat) : List Byte → Nat → Nat
  | [], j => j
  | b :: la, j => if b = x.buf.read ((off + j % dist) % W) then x.extend off dist la (j + 1) else j

/-- The result of WIN_FIND: `len` and `off` (R100). -/
structure Found where
  len : Nat
  off : Nat
  deriving DecidableEq, Repr

/-- WIN_FIND (R100) of a lookahead of at most `MAXLEN` bytes: search distances `1 .. fill`, then extend the
final best when it touches the write pointer. -/
def Window.find (x : Window) (la : List Byte) : Found :=
  let best := x.search la x.fill.val 1 ⟨0, 0, 0⟩
  let len :=
    if 0 < best.len ∧ best.len = best.dist then x.extend best.off best.dist (la.drop best.len) best.len
    else best.len
  if len = 0 then ⟨0, 0⟩ else ⟨len, best.off⟩

/-! ### Updates of the machine, one a field -/

def State.setWe (s : State) (x : Window) : State := { s with we := x }
def State.setWd (s : State) (x : Window) : State := { s with wd := x }
def State.setWePort (s : State) (p : WinPort) : State := { s with wePort := p }
def State.setWdPort (s : State) (p : WinPort) : State := { s with wdPort := p }
def State.setEnc (s : State) (e : Encoder) : State := { s with enc := e }
def State.setDec (s : State) (d : Decoder) : State := { s with dec := d }
def State.setRead (s : State) (r : ReadContext) : State := { s with read := r }
def State.setSink (s : State) (k : Sink) : State := { s with sink := k }
def State.setSource (s : State) (r : Source) : State := { s with source := r }
def State.setPort (s : State) (p : HostPort) : State := { s with port := p }

/-- The Window instance `x`. -/
def State.window (s : State) : WinId → Window
  | .we => s.we
  | .wd => s.wd

def State.setWindow (s : State) : WinId → Window → State
  | .we, x => s.setWe x
  | .wd, x => s.setWd x

/-- The port of Window instance `x`. -/
def State.winPort (s : State) : WinId → WinPort
  | .we => s.wePort
  | .wd => s.wdPort

def State.setWinPort (s : State) : WinId → WinPort → State
  | .we, p => s.setWePort p
  | .wd, p => s.setWdPort p

/-- Put the results of an operation on a Window's port (R81; log 8). -/
def State.setResult (s : State) (x : WinId) (r : Option WinResult) : State :=
  s.setWinPort x { s.winPort x with res := r }

/-! ### Collaborators -/

/-- What the source answers next (R35): the next scripted answer, or a free value when none is scripted. -/
def Source.answer (r : Source) : SourceAnswer :=
  match r.answers with
  | a :: _ => a
  | [] => Config.sourceDraw r.draws

/-- The source after that answer: a byte answered is consumed (R62), and a free value is drawn once. -/
def Source.after (r : Source) : Source :=
  { answers := r.answers.tail
    draws := if r.answers = [] then r.draws + 1 else r.draws
    pos :=
      match r.answer with
      | .byte _ => r.pos + 1
      | .eof => r.pos
      | .err _ => r.pos }

/-- One `SourceRead()` (R35). -/
def State.sourceRead (s : State) : SourceAnswer × State := (s.source.answer, s.setSource s.source.after)

/-- What the sink answers to its next write (R36): the next scripted answer, or a free value when none is
scripted. -/
def Sink.answer (k : Sink) (bs : List Byte) : SinkAnswer :=
  match k.answers with
  | a :: _ => a
  | [] => Config.sinkDraw k.draws bs

/-- The sink after that answer: `Ok` appends the block; what a failed write left behind is the sink's own
business and is not represented (log 11). -/
def Sink.after (k : Sink) (bs : List Byte) : Sink :=
  { answers := k.answers.tail
    draws := if k.answers = [] then k.draws + 1 else k.draws
    blocks := if k.answer bs = .ok then k.blocks ++ [bs] else k.blocks }

/-- One `SinkWrite(bs)` (R36). -/
def State.sinkWrite (s : State) (bs : List Byte) : SinkAnswer × State :=
  (s.sink.answer bs, s.setSink (s.sink.after bs))

/-! ### Responses -/

/-- `respond(status, count, out, info)` (R12, R77): the command is answered. -/
def State.respond (s : State) (r : Response) : State :=
  s.setPort { s.port with responses := s.port.responses ++ [r] }

/-- A response with no count, no bytes and no error value. -/
def Response.plain (st : Status) : Response := { status := st, count := 0, out := [], info := none }

/-- The end of a DEC_READ: `COUNT = |out|`, the bytes decoded in this command, and nothing of the command left
(R38). -/
def State.respondRead (s : State) (st : Status) (info : Option ErrCode) : State :=
  (s.respond { status := st, count := BitVec.ofNat 16 s.read.out.length, out := s.read.out, info := info }).setRead
    ReadContext.idle

/-! ### Flow inside a command -/

/-- Go on with `f`, unless the command has ended. -/
def Flow.andThen : Flow → (State → Flow) → Flow
  | .goOn s, f => f s
  | .ended s, _ => .ended s

/-- The state a command leaves: as it ended, or after `f` when it ran to its end. -/
def Flow.finish : Flow → (State → State) → State
  | .goOn s, f => f s
  | .ended s, _ => s

/-- The state, wherever the flow stands. -/
def Flow.state : Flow → State
  | .goOn s => s
  | .ended s => s

/-! ### Failing (R170, R175), the one operation, and reset, the one way back (R176) -/

/-- A command fails, or meets the end of the source (R175): the unit writes its status register, its error
register where there is an error value, for CORRUPT empties the carry, and responds; nothing else is written. -/
def takeFailure (f : Failure) (s : State) : State :=
  match f with
  | .sink e =>
    (s.setEnc { s.enc with st := .sinkErr, info := e }).respond
      { status := .sinkErr, count := 0, out := [], info := some e }
  | .source e => (s.setDec { s.dec with st := .sourceErr, info := e }).respondRead .sourceErr (some e)
  | .endOfSource => (s.setDec { s.dec with st := .endOfStream }).respondRead .endOfStream none
  | .corrupt => (s.setDec { s.dec with st := .corrupt, carry := [] }).respondRead .corrupt none

/-- ENC_RESET (R190, R191): every register of the Encoder and its Window at the reset value, a new sink
attached; `enc.info` is a free value (log 5). No response. -/
def State.encReset (s : State) (answers : List SinkAnswer) : State :=
  { s with
    we := Window.reset s.cfg.p0
    wePort := WinPort.idle
    enc := Encoder.reset (Config.encInfoDraw s.sink.draws)
    sink := { answers := answers, draws := s.sink.draws + 1, blocks := [] } }

/-- DEC_RESET (R190, R192): every register of the Decoder and its Window at the reset value, a new source
attached; `dec.info` is a free value (log 5). No response. -/
def State.decReset (s : State) (answers : List SourceAnswer) : State :=
  { s with
    wd := Window.reset s.cfg.p0
    wdPort := WinPort.idle
    dec := Decoder.reset (Config.decInfoDraw s.source.draws)
    source := { answers := answers, draws := s.source.draws + 1, pos := 0 } }

/-! ### What a step takes -/

/-- What the next step does. -/
inductive Event where
  /-- Run this instruction. -/
  | run (i : Instr)
  /-- The reset input ENC_RESET. -/
  | encReset (answers : List SinkAnswer)
  /-- The reset input DEC_RESET. -/
  | decReset (answers : List SourceAnswer)
  /-- Nothing is presented. -/
  | idle
  deriving DecidableEq, Repr

/-- The next event and the state with it taken: a request its unit drives on a Window port first (log 8), then
the host's next input (R174; log 9). -/
def State.fetch (s : State) : Event × State :=
  match s.wePort.req with
  | some r => (.run (decodeWinop .we r), s.setWePort { s.wePort with req := none })
  | none =>
    match s.wdPort.req with
    | some r => (.run (decodeWinop .wd r), s.setWdPort { s.wdPort with req := none })
    | none =>
      match s.port.pending with
      | .command w data :: rest => (.run (decodeCmd w data), s.setPort { s.port with pending := rest })
      | .encReset answers :: rest => (.encReset answers, s.setPort { s.port with pending := rest })
      | .decReset answers :: rest => (.decReset answers, s.setPort { s.port with pending := rest })
      | [] => (.idle, s)

end Sys2Proof.Machine
end

