-- ==== Sys2Proof/Machine/Operands.lean ====
section
/-! DEFINITION. How values reach and leave the units: the status codes and the response word (30_encoding.md R77,
R79), the sticky answers of a unit in a terminal state (60_exceptions.md R172), a source byte for the Decoder
(42_decoder.md R148, R149), and where a decoded byte goes (R141, R142). -/

namespace Sys2Proof.Machine

open Sys2Proof

/-- The 4-bit code of a status (R79). -/
def Status.code : Status → BitVec 4
  | .ok => 0
  | .endOfStream => 1
  | .closed => 2
  | .sourceErr => 3
  | .sinkErr => 4
  | .corrupt => 5
  | .illegalCmd => 6

/-- The status of an `enc.st` (R24, R79). -/
def EncStatus.status : EncStatus → Status
  | .ok => .ok
  | .closed => .closed
  | .sinkErr => .sinkErr

/-- The status of a `dec.st` (R29, R79). -/
def DecStatus.status : DecStatus → Status
  | .ok => .ok
  | .endOfStream => .endOfStream
  | .closed => .closed
  | .sourceErr => .sourceErr
  | .corrupt => .corrupt

/-- The 32-bit RSP word (R77): COUNT in 31..16, RSV 0 in 15..4, STATUS in 3..0. -/
def Response.word (r : Response) : BitVec 32 := r.count ++ (0 : BitVec 12) ++ r.status.code

/-- The answer of an Encoder that is not open (R172): its status, with the sink's error value after a sink
failure. -/
def Encoder.sticky (e : Encoder) : Response :=
  { status := e.st.status, count := 0, out := [], info := if e.st = .sinkErr then some e.info else none }

/-- The answer of a Decoder that is not open (R172, R154): its status, with the source's error value after a
source failure. -/
def Decoder.sticky (d : Decoder) : Response :=
  { status := d.st.status, count := 0, out := [], info := if d.st = .sourceErr then some d.info else none }

/-- R172: `CLOSED`, `SOURCE_ERR` and `CORRUPT` are the Decoder's terminal states; `END` is not one. -/
def DecStatus.terminal : DecStatus → Bool
  | .ok => false
  | .endOfStream => false
  | .closed => true
  | .sourceErr => true
  | .corrupt => true

/-- One source byte for the wire unit being run, or the end of the command (R143, R145, R146, R148, R149). -/
def State.fetchByte (s : State) (k : Byte → State → Flow) : Flow :=
  match s.sourceRead with
  | (.byte b, t) => k b t
  | (.eof, t) => .ended (takeFailure .endOfSource t)
  | (.err e, t) => .ended (takeFailure (.source e) t)

/-- EMIT (R142): to the caller's buffer while there is room, else to the carry. -/
def State.emit (s : State) (b : Byte) : State :=
  if s.read.out.length < s.read.cap then s.setRead { s.read with out := s.read.out ++ [b] }
  else s.setDec { s.dec with carry := s.dec.carry ++ [b] }

/-- DRAIN (R141): move carried bytes, in order, until the buffer is full or the carry is empty. -/
def State.drain (s : State) : State :=
  let room := s.read.cap - s.read.out.length
  (s.setRead { s.read with out := s.read.out ++ s.dec.carry.take room }).setDec
    { s.dec with carry := s.dec.carry.drop room }

end Sys2Proof.Machine
end

