-- ==== Sys2Proof/Machine/Command.lean ====
section
/-! DEFINITION. The meaning of a command word that is no command (30_encoding.md R80, 60_exceptions.md R185). -/

namespace Sys2Proof.Machine

open Sys2Proof

/-- ILLEGAL_CMD (R185): answered, and nothing else. -/
def execIllegalCmd (_n : BitVec 16) (_rsv : BitVec 12) (_op : BitVec 4) (s : State) :
    Host.Outcome State Fault Refusal :=
  .next (s.respond (Response.plain .illegalCmd))

end Sys2Proof.Machine
end

