-- ==== Sys2Proof/Machine/Flags.lean ====
section
/-! DEFINITION. Every flag computation of the spec: the flag byte on the wire (30_encoding.md R71, R84), the
Encoder's accumulator (41_encoder.md R122, R123, R126), the Decoder's flag register (42_decoder.md R143, R144,
R147). -/

namespace Sys2Proof.Machine

open Sys2Proof

/-- `rev8(b)`: the byte whose bit `i` is bit `7 - i` of `b` (R10). -/
def rev8 (b : Byte) : Byte := b.reverse

/-- A flag byte as it stands on the wire, or back: `rev8` of it in the legacy mode (R84). -/
def wireFlags (reversed : Bool) (f : Byte) : Byte := if reversed then rev8 f else f

/-- EMIT_LIT's flag (R122): bit `ntok` set. -/
def literalFlag (flags : BitVec 8) (ntok : BitVec 4) : BitVec 8 := flags ||| ((1 : BitVec 8) <<< ntok.toNat)

/-- `F0` of FLAGBYTE (R126): the pad bits `ntok .. 7` set to 1. -/
def padFlags (flags : BitVec 8) (ntok : BitVec 4) : BitVec 8 := flags ||| ((0xFF : BitVec 8) <<< ntok.toNat)

/-- FLAGBYTE (R126): what FLUSH writes first. -/
def flagByte (cfg : Config) (e : Encoder) : Byte := wireFlags cfg.flagReversed (padFlags e.flags e.ntok)

/-- NEEDFLAGS's load (R143): the sentinel at bit 8 over the flag byte. -/
def loadedFlags (cfg : Config) (f : Byte) : BitVec 9 := 0x100 ||| (wireFlags cfg.flagReversed f).setWidth 9

/-- R147: one flag bit consumed. -/
def State.shiftFlags (s : State) : State := s.setDec { s.dec with freg := s.dec.freg >>> 1 }

end Sys2Proof.Machine
end

