-- ==== Sys2Proof/Machine/Decoder.lean ====
section
/-! DEFINITION. The Decoder (42_decoder.md R140 to R155): the wire units FLAGS, LIT and MATCH, the loop of
DEC_READ that runs them, and the meanings of the three units, DEC_READ and DEC_CLOSE. -/

namespace Sys2Proof.Machine

open Sys2Proof

/-! ### The wire units -/

/-- The effect of a FLAGS byte (R143). -/
def State.loadFlags (s : State) (t : Byte) : State :=
  s.setDec { s.dec with freg := loadedFlags s.cfg t }

/-- The effect of a LIT byte (R145): emitted, then written to `WD`. -/
def State.literal (s : State) (d : Byte) : State :=
  let t := s.emit d
  t.setWd (t.wd.writeByte d)

/-- The replay of R146: `n` bytes from index `idx` on, each emitted and written back before the next is read; a
fault of WIN_READ is CORRUPT (R150). -/
def replay : Nat → Nat → State → Flow
  | 0, _, s => .goOn s
  | n + 1, idx, s =>
    match s.wd.readByte idx with
    | .error _ => .ended (takeFailure .corrupt s)
    | .ok (b, idx') => replay n idx' (s.literal b)

/-! ### DEC_READ -/

/-- NEEDFLAGS (R143). -/
def needFlags (s : State) : Flow := s.fetchByte fun t s' => .goOn (s'.loadFlags t)

/-- LIT_TOKEN (R145). -/
def litToken (s : State) : Flow := s.fetchByte fun d s' => .goOn (s'.literal d)

/-- MATCH_TOKEN (R146). -/
def matchToken (s : State) : Flow :=
  s.fetchByte fun b0 s' => s'.fetchByte fun b1 s'' => replay (matchLength b1).toNat (matchOffset b0 b1).toNat s''

/-- One turn of the loop of R140: a flag byte where one is needed, one token, one shift (R144, R147). -/
def readTurn (s : State) : Flow :=
  ((if s.dec.freg = 1 then needFlags s else .goOn s).andThen fun t =>
    if t.dec.freg.getLsbD 0 then litToken t else matchToken t).andThen fun t => .goOn t.shiftFlags

/-- The loop of R140: turns while there is room, then `OK`. The first argument bounds the turns; each puts at
least one byte in the buffer (log 18). -/
def readLoop : Nat → State → State
  | 0, s => s.respondRead .ok none
  | n + 1, s =>
    if s.read.out.length < s.read.cap then (readTurn s).finish (readLoop n) else s.respondRead .ok none

/-- DEC_READ (R140, R154, R172). -/
def execDecRead (cap : BitVec 16) (s : State) : Host.Outcome State Fault Refusal :=
  if s.dec.st ≠ .ok then .next (s.respond s.dec.sticky)
  else .next (readLoop cap.toNat (s.setRead { cap := cap.toNat, out := [] }).drain)

/-- DEC_CLOSE (R151). -/
def execDecClose (s : State) : Host.Outcome State Fault Refusal :=
  if s.dec.st.terminal then .next (s.respond s.dec.sticky)
  else .next ((s.setDec { s.dec with st := .closed, carry := [] }).respond (Response.plain .ok))

/-! ### The meanings of the wire units -/

/-- FLAGS (R143). -/
def execFlags (t : Byte) (s : State) : Host.Outcome State Fault Refusal := .next (s.loadFlags t)

/-- LIT (R145). -/
def execLit (d : Byte) (s : State) : Host.Outcome State Fault Refusal := .next (s.literal d)

/-- MATCH (R146). -/
def execMatchTok (off : Index) (len : BitVec 5) (s : State) : Host.Outcome State Fault Refusal :=
  .next (replay len.toNat off.toNat s).state

end Sys2Proof.Machine
end

