-- ==== Sys2Proof/Machine/Encoder.lean ====
section
/-! DEFINITION. The Encoder (41_encoder.md R120 to R129): its FSM steps and the meanings of ENC_WRITE and
ENC_CLOSE. -/

namespace Sys2Proof.Machine

open Sys2Proof

/-- EMIT_LIT (R122). -/
def State.emitLit (s : State) (b : Byte) : State :=
  s.setEnc { s.enc with
    flags := literalFlag s.enc.flags s.enc.ntok
    stage := s.enc.stage ++ [b]
    ntok := s.enc.ntok + 1 }

/-- EMIT_MATCH (R123): the flag bit stays 0. -/
def State.emitMatch (s : State) (off : Index) (len : BitVec 5) : State :=
  s.setEnc { s.enc with
    stage := s.enc.stage ++ [matchLow off, matchHigh off len]
    ntok := s.enc.ntok + 1 }

/-- ENC_STEP (R121) on the data from the cursor on, `b` first: the number of bytes consumed and the state, one
token staged and the bytes it consumed written to `WE` (R124). -/
def encStep (b : Byte) (rest : List Byte) (s : State) : Nat × State :=
  let data := b :: rest
  let f := s.we.find (data.take maxLen)
  if f.len < minLen then
    (1, (s.emitLit b).setWe (s.we.writeBytes [b]))
  else
    (f.len,
      (s.emitMatch (BitVec.ofNat 12 f.off) (BitVec.ofNat 5 f.len)).setWe (s.we.writeBytes (data.take f.len)))

/-- FLUSH (R125): one sink write of the block; on `Ok` the block state is reset, on `Err(e)` it is left. -/
def State.flush (s : State) : SinkAnswer × State :=
  match s.sinkWrite (flagByte s.cfg s.enc :: s.enc.stage) with
  | (.ok, t) => (.ok, t.setEnc { t.enc with flags := 0x00, ntok := 0, stage := [] })
  | (.err e, t) => (.err e, t)

/-- A flush inside a command: a sink failure ends the command (R128). -/
def flushOrFail (s : State) : Flow :=
  match s.flush with
  | (.ok, t) => .goOn t
  | (.err e, t) => .ended (takeFailure (.sink e) t)

/-- The loop of ENC_WRITE (R120): one token a turn, a flush when the block is full. The first argument bounds
the turns; each consumes at least one byte (log 18). -/
def encLoop : Nat → List Byte → State → Flow
  | 0, _, s => .goOn s
  | _ + 1, [], s => .goOn s
  | n + 1, b :: rest, s =>
    let (c, t) := encStep b rest s
    (if t.enc.ntok = 8 then flushOrFail t else .goOn t).andThen (encLoop n ((b :: rest).drop c))

/-- ENC_WRITE (R120). Data that does not have the length the word says is refused (R13, R76). -/
def execEncWrite (n : BitVec 16) (data : List Byte) (s : State) : Host.Outcome State Fault Refusal :=
  if data.length ≠ n.toNat then .refused .dataLengthMismatch
  else if s.enc.st ≠ .ok then .next (s.respond s.enc.sticky)
  else
    .next ((encLoop data.length data s).finish fun t =>
      t.respond { status := .ok, count := n, out := [], info := none })

/-- ENC_CLOSE (R127). -/
def execEncClose (s : State) : Host.Outcome State Fault Refusal :=
  if s.enc.st ≠ .ok then .next (s.respond s.enc.sticky)
  else
    .next ((if 0 < s.enc.ntok then flushOrFail s else .goOn s).finish fun t =>
      (t.setEnc { t.enc with st := .closed }).respond (Response.plain .ok))

end Sys2Proof.Machine
end

