-- ==== Sys2Proof/Machine/Window.lean ====
section
/-! DEFINITION. The meanings of the Window operations (40_window.md R100 to R104). A request on a Window's port is
run on that Window and its results are put on the same port (30_encoding.md R81; log 8). -/

namespace Sys2Proof.Machine

open Sys2Proof

/-- WIN_FIND (R100): no effect on the Window; `len` and `off` on the port. A lookahead over `MAXLEN` is refused
(R13). -/
def execWinFind (x : WinId) (la : List Byte) (s : State) : Host.Outcome State Fault Refusal :=
  if maxLen < la.length then .refused .lookaheadTooLong
  else
    let f := (s.window x).find la
    .next (s.setResult x (some (.found (BitVec.ofNat 5 f.len) (BitVec.ofNat 12 f.off))))

/-- WIN_READ (R102): no effect on the Window; the byte and the advanced index on the port. -/
def execWinRead (x : WinId) (idx : Nat) (s : State) : Host.Outcome State Fault Refusal :=
  match (s.window x).readByte idx with
  | .ok (b, idx') => .next (s.setResult x (some (.read b (BitVec.ofNat 12 idx'))))
  | .error f => .fault f

/-- WIN_WRITE (R103); no results. -/
def execWinWrite (x : WinId) (b : Byte) (s : State) : Host.Outcome State Fault Refusal :=
  .next ((s.setWindow x ((s.window x).writeByte b)).setResult x none)

/-- WIN_WRITES (R104); no results. -/
def execWinWrites (x : WinId) (bs : List Byte) (s : State) : Host.Outcome State Fault Refusal :=
  .next ((s.setWindow x ((s.window x).writeBytes bs)).setResult x none)

end Sys2Proof.Machine
end

