-- ==== Sys2Proof/Machine/Dispatch.lean ====
section
/-! DEFINITION. One arm per constructor of Instr, each one direct call of its meaning. -/

namespace Sys2Proof.Machine

open Sys2Proof

def exec (i : Instr) (s : State) : Host.Outcome State Fault Refusal :=
  match i with
  | .encWrite n data => Sys2Proof.Machine.execEncWrite n data s
  | .encClose => Sys2Proof.Machine.execEncClose s
  | .decRead cap => Sys2Proof.Machine.execDecRead cap s
  | .decClose => Sys2Proof.Machine.execDecClose s
  | .illegalCmd n rsv op => Sys2Proof.Machine.execIllegalCmd n rsv op s
  | .flags t => Sys2Proof.Machine.execFlags t s
  | .lit d => Sys2Proof.Machine.execLit d s
  | .matchTok off len => Sys2Proof.Machine.execMatchTok off len s
  | .winFind x la => Sys2Proof.Machine.execWinFind x la s
  | .winRead x idx => Sys2Proof.Machine.execWinRead x idx s
  | .winWrite x b => Sys2Proof.Machine.execWinWrite x b s
  | .winWrites x bs => Sys2Proof.Machine.execWinWrites x bs s

end Sys2Proof.Machine
end

