-- ==== Sys2Proof/Machine/Step.lean ====
section
/-! DEFINITION. One step of the machine (60_exceptions.md R174, 70_reset_and_hazards.md R190), and where a test
places the instruction the next step runs. -/

namespace Sys2Proof.Machine

open Sys2Proof

/-- One step: the next request of a Window port or the next host input is taken and performed whole (R6, R61).
With nothing presented nothing changes (log 9). -/
def step (s : State) : Host.Outcome State Fault Refusal :=
  match s.fetch with
  | (.run i, t) => exec i t
  | (.encReset answers, t) => .next (t.encReset answers)
  | (.decReset answers, t) => .next (t.decReset answers)
  | (.idle, t) => .next t

/-- The ports with no Window request, so that the next step takes the host's input. -/
def State.withoutRequests (s : State) : State :=
  { s with wePort := { s.wePort with req := none }, wdPort := { s.wdPort with req := none } }

/-- A command word placed first on the command port. -/
def State.withCommand (s : State) (w : BitVec 32) (data : List Byte) : State :=
  { s with port := { s.port with pending := .command w data :: s.port.pending } }

/-- An open Decoder with this flag register and nothing carried, whose source gives these bytes and then EOF. -/
def State.withWire (s : State) (freg : BitVec 9) (bytes : List Byte) : State :=
  { s with
    dec := { s.dec with st := .ok, freg := freg, carry := [] }
    source := { s.source with answers := bytes.map SourceAnswer.byte ++ [.eof] } }

/-- The command word of DEC_READ with capacity 1 (R76). -/
def readOneWord : BitVec 32 := 0x00010003

/-- The state whose next step runs the table word's instruction. A 32-bit word goes on the command port, with
zero data bytes where it is an ENC_WRITE. A wire unit is run inside a DEC_READ: capacity 1, the flag register
that selects its kind, its bytes first in the source. A Window operation is requested on its Window's port.
The widths and the choice among 8-bit rows are those of `decodeTableWord` (log 12, log 13). -/
def State.withFetchWord (s : State) (nbits w : Nat) : State :=
  if nbits = 32 then
    s.withoutRequests.withCommand (BitVec.ofNat 32 w) (tableCmdData (BitVec.ofNat 32 w))
  else if nbits = 16 then
    (s.withoutRequests.withCommand readOneWord []).withWire 0x100 (tableMatchBytes w)
  else if nbits = 8 ∨ nbits = 2 then
    if w < 4 then
      s.withoutRequests.setWinPort (zeroRequestWindow w)
        { s.winPort (zeroRequestWindow w) with req := some (zeroRequest w) }
    else
      (s.withoutRequests.withCommand readOneWord []).withWire 0x001 [BitVec.ofNat 8 w]
  else s

end Sys2Proof.Machine
end

