-- ==== Sys2Proof/Safety.lean ====
section
/-! DEFINITION. What holds of the machine between commands (10_state.md R23, R28, R30, R32; 42_decoder.md R152),
and the words the statements use: distances, frames, collaborators that do not fail, runs of commands. -/

namespace Sys2Proof.Machine

open Sys2Proof

/-- Storage in canonical form, with no address outside `[0, W)` (R50). -/
def Window.stored (x : Window) : Bool := x.buf.wf && x.buf.all fun c => decide (c.1 < W)

/-- R23: while fewer than `W` bytes have been written, the pointer stands `fill` slots past `P0`, and the slots
not written yet hold their reset value. -/
def Window.seeded (p0 : Index) (x : Window) : Prop :=
  x.fill.val < W →
    x.ptr = p0 + BitVec.ofNat 12 x.fill.val ∧
      ∀ k, x.fill.val ≤ k → k < W → x.buf.read ((p0.toNat + k) % W) = 0x00

/-- The Window's part of the invariant. -/
structure Window.Inv (p0 : Index) (x : Window) : Prop where
  stored : x.stored = true
  seeded : x.seeded p0

/-- How many of the first `n` tokens of a block are Matches: the 0 bits among `flags[n-1:0]` (R28). -/
def matchCount (flags : BitVec 8) (n : Nat) : Nat := (List.range n).countP fun i => !flags.getLsbD i

/-- The Encoder's part (R26, R28): bits of tokens not yet there are 0, the staging holds one byte a Literal and
two a Match, and an open Encoder's block is not full. -/
structure Encoder.Inv (e : Encoder) : Prop where
  ntok_le : e.ntok.toNat ≤ blockTokens
  open_le : e.st = .ok → e.ntok.toNat < blockTokens
  high_clear : ∀ i, e.ntok.toNat ≤ i → i < blockTokens → e.flags.getLsbD i = false
  stage_length : e.stage.length = e.ntok.toNat + matchCount e.flags e.ntok.toNat

/-- The Decoder's part: the flag register is a sentinel over unconsumed bits (R30), the carry holds at most 17
bytes (R152), and none when the Decoder is not open (R32). -/
structure Decoder.Inv (d : Decoder) : Prop where
  sentinel : ∃ k f, k ≤ 8 ∧ f < 2 ^ k ∧ d.freg.toNat = 2 ^ k + f
  carry_le : d.carry.length ≤ maxLen - 1
  carry_nil : d.st ≠ .ok → d.carry = []

/-- What holds between steps. -/
structure State.Inv (s : State) : Prop where
  we : s.we.Inv s.cfg.p0
  wd : s.wd.Inv s.cfg.p0
  enc : s.enc.Inv
  dec : s.dec.Inv
  read : s.read = ReadContext.idle

/-- The distance of an offset (00_scope.md glossary, R101): `(ptr - off) mod W`, with 0 read as `W`. -/
def Window.distance (x : Window) (off : Nat) : Nat :=
  if (x.ptr.toNat + W - off) % W = 0 then W else (x.ptr.toNat + W - off) % W

/-- The lookahead agrees for `L` bytes with the Window's content from distance `d` on, without reaching the slot
at the pointer (R100: a candidate's walk). -/
def Window.agrees (x : Window) (la : List Byte) (d L : Nat) : Prop :=
  L ≤ la.length ∧ L ≤ d ∧ ∀ j, j < L → la[j]? = some (x.buf.read ((x.candidate d + j) % W))

/-- The sink answers `Ok` to each of its next `n` writes. -/
def Sink.accepts (k : Sink) (n : Nat) : Prop :=
  n ≤ k.answers.length ∧ ∀ a ∈ k.answers.take n, a = SinkAnswer.ok

/-- The source is at the first of these bytes, and ends after them. -/
def Source.holds (r : Source) (bs : List Byte) : Prop :=
  ∃ rest, r.answers = bs.map SourceAnswer.byte ++ SourceAnswer.eof :: rest

/-- The state with one more response given and nothing else changed. -/
def State.answered (s : State) (r : Response) : State :=
  { s with port := { s.port with responses := s.port.responses ++ [r] } }

/-- `t` differs from `s` in nothing of the Decoder's side: its Window and port, its registers, its source and
the DEC_READ context. -/
def State.sameDecoder (s t : State) : Prop :=
  t.wd = s.wd ∧ t.wdPort = s.wdPort ∧ t.dec = s.dec ∧ t.source = s.source ∧ t.read = s.read

/-- `t` differs from `s` in nothing of the Encoder's side: its Window and port, its registers and its sink. -/
def State.sameEncoder (s t : State) : Prop :=
  t.we = s.we ∧ t.wePort = s.wePort ∧ t.enc = s.enc ∧ t.sink = s.sink

/-- No unit drives a request on its Window's port, so the next step takes the host's input. -/
def State.quiet (s : State) : Prop := s.wePort.req = none ∧ s.wdPort.req = none

/-- An Encoder with an empty block, open (R191). -/
def Encoder.fresh (e : Encoder) : Prop := e.st = .ok ∧ e.flags = 0 ∧ e.ntok = 0 ∧ e.stage = []

/-- A Decoder before the first byte of a stream (R192). -/
def Decoder.fresh (d : Decoder) : Prop := d.st = .ok ∧ d.freg = 1 ∧ d.carry = []

/-- ENC_WRITE of each chunk in turn, then ENC_CLOSE: how a host compresses (R131). -/
def encodeAll : List (List Byte) → State → Host.Outcome State Fault Refusal
  | [], s => exec .encClose s
  | c :: cs, s =>
    match exec (.encWrite (BitVec.ofNat 16 c.length) c) s with
    | .next t => encodeAll cs t
    | .fault f => .fault f
    | .refused r => .refused r

/-- DEC_READ with each capacity in turn: how a host decompresses (R153). -/
def readAll : List (BitVec 16) → State → Host.Outcome State Fault Refusal
  | [], s => .next s
  | c :: cs, s =>
    match exec (.decRead c) s with
    | .next t => readAll cs t
    | .fault f => .fault f
    | .refused r => .refused r

/-- The decoded bytes the responses delivered, in order. -/
def delivered (rs : List Response) : List Byte := rs.flatMap Response.out

end Sys2Proof.Machine
end

