-- ==== Sys2Proof/Certificates/Slice0/Obligations.lean ====
section
/-! DEFINITION. The statements for the provers: encodings, the step, reset, the Window operations, the Encoder,
the Decoder, what every step keeps, and the round trip. Each docstring names the rule of spec/ it formalises. -/

open Sys2Proof Sys2Proof.Machine

/-! ### Encodings (30_encoding.md) -/

/-- R71 to R74, R76, R78, R80, R81: what the encoder writes for a well-formed instruction, the decoder reads back,
every operand at every value. -/
def Obligations.DecodeOfEncodeIsTheInstruction : Prop :=
  ∀ i : Instr, i.wf = true → decode (encode i) = .ok i

/-- R76, R78, R80: no bit of a command word is lost by decoding it, and no byte of an ENC_WRITE's data; a word
whose data has the length it says decodes to a well-formed instruction. The clause that data beside any other word is
dropped is R185's for an illegal word only; for ENC_CLOSE, DEC_READ and DEC_CLOSE it is the model's (log 15). -/
def Obligations.EncodeOfDecodeIsTheCommandWord : Prop :=
  ∀ (w : BitVec 32) (data : List Byte),
    encode (decodeCmd w data) = .cmd w (if w.toNat % 65536 = 1 then data else []) ∧
      (data.length = w.toNat / 65536 → (decodeCmd w data).wf = true)

/-- R74: the fields of a MATCH token, by their values, in both directions. -/
def Obligations.MatchFieldsAreExactInverses : Prop :=
  (∀ b0 b1 : Byte,
    (matchOffset b0 b1).toNat = b1.toNat / 16 * 256 + b0.toNat ∧
      (matchLength b1).toNat = b1.toNat % 16 + 3 ∧
      matchLow (matchOffset b0 b1) = b0 ∧ matchHigh (matchOffset b0 b1) (matchLength b1) = b1) ∧
    ∀ (off : Index) (len : BitVec 5), 3 ≤ len.toNat → len.toNat ≤ 18 →
      (matchLow off).toNat = off.toNat % 256 ∧
        (matchHigh off len).toNat = off.toNat / 256 * 16 + (len.toNat - 3) ∧
        matchOffset (matchLow off) (matchHigh off len) = off ∧ matchLength (matchHigh off len) = len

/-- R76, R74, R71, R72, R81: words written out from the spec's tables (95_test_vectors.md T2, T5 to T12; the four
codes of R81) decode to the instructions they stand for. -/
def Obligations.SpecWordsDecodeAsTheSpecSays : Prop :=
  decodeCmd 0x00020001 [0x61, 0x62] = .encWrite 2 [0x61, 0x62] ∧
    decodeCmd 0x00000002 [] = .encClose ∧
    decodeCmd 0x00080003 [] = .decRead 8 ∧
    decodeCmd 0x00000004 [] = .decClose ∧
    decodeCmd 0x00000012 [] = .illegalCmd 0 1 2 ∧
    decodeCmd 0x00010002 [] = .illegalCmd 1 0 2 ∧
    decode (.wire .flagByte [0xFF]) = .ok (.flags 0xFF) ∧
    decode (.wire .literal [0x00]) = .ok (.lit 0x00) ∧
    decode (.wire .matching [0xD0, 0x90]) = .ok (.matchTok 0x9D0 3) ∧
    decode (.wire .matching [0xE5, 0xFF]) = .ok (.matchTok 0xFE5 18) ∧
    decode (.winop .we ⟨0b00, [0x61], 0, 0⟩) = .ok (.winFind .we [0x61]) ∧
    decode (.winop .wd ⟨0b01, [], 4095, 0⟩) = .ok (.winRead .wd 4095) ∧
    decode (.winop .wd ⟨0b10, [], 0, 0x61⟩) = .ok (.winWrite .wd 0x61) ∧
    decode (.winop .we ⟨0b11, [0x78, 0x79], 0, 0⟩) = .ok (.winWrites .we [0x78, 0x79])

/-- R79: the status codes, and the statuses a unit's status register stands for. -/
def Obligations.StatusCodesAreTheTables : Prop :=
  Status.ok.code = 0 ∧ Status.endOfStream.code = 1 ∧ Status.closed.code = 2 ∧ Status.sourceErr.code = 3 ∧
    Status.sinkErr.code = 4 ∧ Status.corrupt.code = 5 ∧ Status.illegalCmd.code = 6 ∧
    EncStatus.ok.status = .ok ∧ EncStatus.closed.status = .closed ∧ EncStatus.sinkErr.status = .sinkErr ∧
    DecStatus.ok.status = .ok ∧ DecStatus.endOfStream.status = .endOfStream ∧
    DecStatus.closed.status = .closed ∧ DecStatus.sourceErr.status = .sourceErr ∧
    DecStatus.corrupt.status = .corrupt

/-- R77 (the word's fields): STATUS in bits 3..0, zero in bits 15..4, COUNT in bits 31..16. -/
def Obligations.ResponseWordHoldsStatusAndCount : Prop :=
  ∀ r : Response,
    r.word.toNat % 16 = r.status.code.toNat ∧ r.word.toNat / 16 % 4096 = 0 ∧ r.word.toNat / 65536 = r.count.toNat

/-! ### The step (60_exceptions.md R174) -/

/-- R174: a step with a command presented is exec of the instruction its word decodes to, the command taken from
the port. That no Window request is driven is the model's condition (log 8). -/
def Obligations.StepRunsTheDecodedCommand : Prop :=
  ∀ (s : State) (w : BitVec 32) (data : List Byte) (rest : List HostInput), s.quiet →
    s.port.pending = .command w data :: rest →
      step s = exec (decodeCmd w data) (s.setPort { s.port with pending := rest })

/-- R81, with the model's choice of when a Window port is served (log 8): a step with a request driven on a
Window's port is exec of the operation it decodes to, the request taken from the port. -/
def Obligations.StepRunsTheWindowRequest : Prop :=
  ∀ (s : State) (r : WinRequest),
    (s.wePort.req = some r → step s = exec (decodeWinop .we r) (s.setWePort { s.wePort with req := none })) ∧
      (s.wePort.req = none → s.wdPort.req = some r →
        step s = exec (decodeWinop .wd r) (s.setWdPort { s.wdPort with req := none }))

/-- R75, R140, R143 to R147: a turn of DEC_READ runs what the decoder reads from the source's bytes. In ConsumeBit
it is exec of the token and one shift; in NeedFlags it is exec of the flag byte, and then the turn from there. -/
def Obligations.ReadTurnRunsTheDecodedUnit : Prop :=
  ∀ (s : State) (bytes : List Byte) (rest : List SourceAnswer) (i : Instr),
    s.source.answers = bytes.map SourceAnswer.byte ++ rest →
      decodeWire (wireKind s.dec.freg) bytes = .ok (i, []) →
        ∃ t, exec i (s.setSource { s.source with answers := rest, pos := s.source.pos + bytes.length }) = .next t ∧
          readTurn s = if s.dec.freg = 1 then readTurn t else .goOn t.shiftFlags

/-! ### Reset (70_reset_and_hazards.md) -/

/-- R41: the reset values. Those of `enc.info` and `dec.info` are the model's choice (log 5), those of the ports
and the collaborators' lists too (logs 3, 6, 8, 9, 10, 11); they are not stated here. -/
def Obligations.PowerUpStateHasTheResetValues : Prop :=
  (∀ a, State.reset.we.buf.read a = 0x00) ∧ (∀ a, State.reset.wd.buf.read a = 0x00) ∧
    State.reset.we.ptr = 0 ∧ State.reset.wd.ptr = 0 ∧ State.reset.we.fill = 0 ∧ State.reset.wd.fill = 0 ∧
    State.reset.enc.st = .ok ∧ State.reset.enc.flags = 0x00 ∧ State.reset.enc.ntok = 0 ∧
    State.reset.enc.stage = [] ∧
    State.reset.dec.st = .ok ∧ State.reset.dec.freg = 0x001 ∧ State.reset.dec.carry = [] ∧
    State.reset.cfg.p0 = 0 ∧ State.reset.cfg.flagReversed = false

/-- R191, R190: ENC_RESET in any state of the Encoder. A pending block is not written; the sink is the new one;
the Decoder's side and the responses are as they were. The clauses on
the sink and on the inputs are the model's way to hold them (logs 3, 8, 9, 11). -/
def Obligations.EncResetRestoresTheEncoder : Prop :=
  ∀ (s : State) (answers : List SinkAnswer) (rest : List HostInput), s.quiet →
    s.port.pending = .encReset answers :: rest →
      ∃ t, step s = .next t ∧ (∀ a, t.we.buf.read a = 0x00) ∧ t.we.ptr = s.cfg.p0 ∧ t.we.fill = 0 ∧
        t.enc.st = .ok ∧ t.enc.flags = 0x00 ∧ t.enc.ntok = 0 ∧ t.enc.stage = [] ∧
        t.sink.answers = answers ∧ t.sink.blocks = [] ∧
        s.sameDecoder t ∧ t.cfg = s.cfg ∧ t.port = { s.port with pending := rest }

/-- R192, R190: DEC_RESET in any state of the Decoder. Carried bytes and unconsumed flag bits are dropped; the
source is the new one; the Encoder's side and the responses are as they were. The clauses on
the source, the inputs and the DEC_READ context are the model's way to hold them (logs 3, 7, 8, 9). -/
def Obligations.DecResetRestoresTheDecoder : Prop :=
  ∀ (s : State) (answers : List SourceAnswer) (rest : List HostInput), s.quiet →
    s.port.pending = .decReset answers :: rest →
      ∃ t, step s = .next t ∧ (∀ a, t.wd.buf.read a = 0x00) ∧ t.wd.ptr = s.cfg.p0 ∧ t.wd.fill = 0 ∧
        t.dec.st = .ok ∧ t.dec.freg = 0x001 ∧ t.dec.carry = [] ∧
        t.source.answers = answers ∧ t.source.pos = 0 ∧
        s.sameEncoder t ∧ t.read = s.read ∧ t.cfg = s.cfg ∧ t.port = { s.port with pending := rest }

/-- R193 (its first sentence): after an ENC_RESET and a DEC_RESET, in either order, the two Windows hold the
same. -/
def Obligations.ResetsSeedTheWindowsAlike : Prop :=
  ∀ (s t u : State) (ka : List SinkAnswer) (ra : List SourceAnswer) (rest : List HostInput), s.quiet →
    (s.port.pending = .encReset ka :: .decReset ra :: rest ∨
      s.port.pending = .decReset ra :: .encReset ka :: rest) →
      step s = .next t → step t = .next u → u.we = u.wd ∧ u.enc.fresh ∧ u.dec.fresh

/-! ### Window operations (40_window.md) -/

/-- R101 (1) to (6), with R100's extension: WIN_FIND answers the longest agreement with earlier bytes, the nearest
of equals, extended only when it touches the write pointer; it changes nothing but its port's result lines. That the results
stand on those lines after the operation is the model's choice (log 8). -/
def Obligations.WinFindAnswersTheLongestMatch : Prop :=
  ∀ (x : WinId) (la : List Byte) (s : State), la.length ≤ maxLen →
    ∃ len off : Nat,
      exec (.winFind x la) s =
          .next (s.setResult x (some (.found (BitVec.ofNat 5 len) (BitVec.ofNat 12 off)))) ∧
        len ≤ la.length ∧ off < W ∧ (len = 0 → off = 0) ∧
        (len = 0 → ∀ d L, 1 ≤ d → d ≤ (s.window x).fill.val → (s.window x).agrees la d L → L = 0) ∧
        (0 < len →
          let d := (s.window x).distance off
          1 ≤ d ∧ d ≤ (s.window x).fill.val ∧
            (∀ j, j < min len d → la[j]? = some ((s.window x).buf.read ((off + j) % W))) ∧
            (∀ j, d ≤ j → j < len → la[j]? = la[j - d]?) ∧
            (∀ d' L, 1 ≤ d' → d' ≤ (s.window x).fill.val → (s.window x).agrees la d' L →
              L ≤ min len d ∧ (L = min len d → d ≤ d')) ∧
            (d ≤ len → len < la.length → la[len]? ≠ la[len - d]?))

/-- R100, R13: a lookahead over 18 bytes is refused. -/
def Obligations.WinFindRefusesALongLookahead : Prop :=
  ∀ (x : WinId) (la : List Byte) (s : State), maxLen < la.length →
    exec (.winFind x la) s = .refused .lookaheadTooLong

/-- R102: WIN_READ inside and outside `[0, W)`; nothing but the port's result lines changes. That the results stand on
those lines after the operation is the model's choice (log 8). -/
def Obligations.WinReadGivesTheByteOrFaults : Prop :=
  ∀ (x : WinId) (idx : Nat) (s : State),
    (idx < W →
      exec (.winRead x idx) s =
        .next (s.setResult x (some (.read ((s.window x).buf.read idx) (BitVec.ofNat 12 ((idx + 1) % W)))))) ∧
      (W ≤ idx → exec (.winRead x idx) s = .fault .outOfRange)

/-- R103: WIN_WRITE stores at the pointer, advances it modulo `W` and counts; every other slot, and everything
else but the port's result lines, is unchanged. -/
def Obligations.WinWriteStoresAtThePointer : Prop :=
  ∀ (x : WinId) (b : Byte) (s : State), (s.window x).stored = true →
    ∃ (y : Window) (r : Option WinResult), exec (.winWrite x b) s = .next ((s.setWindow x y).setResult x r) ∧
      y.stored = true ∧
      y.buf.read (s.window x).ptr.toNat = b ∧
      (∀ a, a ≠ (s.window x).ptr.toNat → y.buf.read a = (s.window x).buf.read a) ∧
      y.ptr.toNat = ((s.window x).ptr.toNat + 1) % W ∧
      y.fill.val = min ((s.window x).fill.val + 1) W

/-- R104 and R23: WIN_WRITES is WIN_WRITE of each byte in order, so of at most `W` bytes byte `i` stands `i` slots
past the old pointer; every other slot, and everything else but the port's result lines, is unchanged. -/
def Obligations.WinWritesStoresInOrder : Prop :=
  ∀ (x : WinId) (bs : List Byte) (s : State), (s.window x).stored = true →
    ∃ (y : Window) (r : Option WinResult), exec (.winWrites x bs) s = .next ((s.setWindow x y).setResult x r) ∧
      y.stored = true ∧
      (bs.length ≤ W → ∀ i, i < bs.length →
        some (y.buf.read (((s.window x).ptr.toNat + i) % W)) = bs[i]?) ∧
      (∀ a, (∀ i, i < bs.length → a ≠ ((s.window x).ptr.toNat + i) % W) →
        y.buf.read a = (s.window x).buf.read a) ∧
      y.ptr.toNat = ((s.window x).ptr.toNat + bs.length) % W ∧
      y.fill.val = min ((s.window x).fill.val + bs.length) W ∧
      (∀ b cs, bs = b :: cs → ∀ t, exec (.winWrite x b) s = .next t →
        exec (.winWrites x bs) s = exec (.winWrites x cs) t) ∧
      (bs = [] → y = s.window x)

/-- R105: the replay of a Match of any length up to 18. Byte `j` is the byte at its slot while `j` is below the
distance, and the replay's own byte `j - d` from there on; the bytes go to the buffer while there is room, then
to the carry, and are written to `WD`; nothing else changes. If the Match is what WIN_FIND answers, the bytes are
the lookahead's. -/
def Obligations.MatchReplaysEarlierBytes : Prop :=
  ∀ (off : Index) (len : BitVec 5) (s : State), s.wd.stored = true → len.toNat ≤ maxLen →
    ∃ bs : List Byte,
      exec (.matchTok off len) s =
          .next { s with
            wd := s.wd.writeBytes bs
            read := { s.read with out := s.read.out ++ bs.take (s.read.cap - s.read.out.length) }
            dec := { s.dec with carry := s.dec.carry ++ bs.drop (s.read.cap - s.read.out.length) } } ∧
        bs.length = len.toNat ∧
        (∀ j, j < len.toNat →
          bs[j]? =
            if j < s.wd.distance off.toNat then some (s.wd.buf.read ((off.toNat + j) % W))
            else bs[j - s.wd.distance off.toNat]?) ∧
        (∀ la : List Byte, la.length ≤ maxLen → 0 < len.toNat →
          s.wd.find la = ⟨len.toNat, off.toNat⟩ → bs = la.take len.toNat)

/-! ### Encoder (41_encoder.md) -/

/-- R13, R76: an ENC_WRITE whose data does not have the length its word says is refused. -/
def Obligations.EncWriteRefusesAWrongLength : Prop :=
  ∀ (n : BitVec 16) (data : List Byte) (s : State), data.length ≠ n.toNat →
    exec (.encWrite n data) s = .refused .dataLengthMismatch

/-- R121 to R124, R132: one token decision on a block with room. It consumes 1 byte as a Literal when WIN_FIND
answers a length under 3, else as a Match the 3 to 18 bytes WIN_FIND answers, at a distance of at most `WE.fill`;
stages the token with its flag bit; and writes to `WE` the bytes consumed; nothing else changes. -/
def Obligations.TokenDecisionStagesWhatItConsumes : Prop :=
  ∀ (b : Byte) (rest : List Byte) (s : State), s.enc.ntok.toNat < blockTokens →
    ∃ (c : Nat) (e : Encoder),
      encStep b rest s = (c, (s.setEnc e).setWe (s.we.writeBytes ((b :: rest).take c))) ∧
        1 ≤ c ∧ c ≤ rest.length + 1 ∧
        e.st = s.enc.st ∧ e.info = s.enc.info ∧ e.ntok.toNat = s.enc.ntok.toNat + 1 ∧
        (∀ i, i < blockTokens → i ≠ s.enc.ntok.toNat → e.flags.getLsbD i = s.enc.flags.getLsbD i) ∧
        ((c = 1 ∧ (s.we.find ((b :: rest).take maxLen)).len < 3 ∧
            e.flags.getLsbD s.enc.ntok.toNat = true ∧ e.stage = s.enc.stage ++ [b]) ∨
          ∃ off : Nat, 3 ≤ c ∧ c ≤ 18 ∧ off < W ∧ s.we.distance off ≤ s.we.fill.val ∧
            s.we.find ((b :: rest).take maxLen) = ⟨c, off⟩ ∧
            e.flags = s.enc.flags ∧
            e.stage = s.enc.stage ++ [BitVec.ofNat 8 (off % 256), BitVec.ofNat 8 (off / 256 * 16 + (c - 3))])

/-- R120: ENC_WRITE on an open Encoder takes a token a turn from the data, as long as there is data: the token
decision, a flush when that was the eighth token, the rest of the data; at its end it responds OK with `COUNT = N`.
The model bounds its loop by the length of the data (log 18): the bound cuts nothing off. -/
def Obligations.EncWriteTakesATokenATurn : Prop :=
  (∀ (n : BitVec 16) (data : List Byte) (s : State), data.length = n.toNat → s.enc.st = .ok →
    exec (.encWrite n data) s =
      .next ((encLoop data.length data s).finish fun t =>
        t.answered { status := .ok, count := n, out := [], info := none })) ∧
    (∀ (k : Nat) (s : State), encLoop k [] s = .goOn s) ∧
    ∀ (k : Nat) (b : Byte) (rest : List Byte) (s t : State) (c : Nat), rest.length < k → encStep b rest s = (c, t) →
      encLoop k (b :: rest) s =
        (if t.enc.ntok = 8 then flushOrFail t else .goOn t).andThen
          (encLoop ((b :: rest).drop c).length ((b :: rest).drop c))

/-- R131 (one byte a command), R122: an ENC_WRITE of one byte into a block with room for more stages it as a
Literal and writes no block. -/
def Obligations.OneByteWriteIsALiteral : Prop :=
  ∀ (b : Byte) (s : State), s.enc.st = .ok → s.enc.ntok.toNat < 7 →
    exec (.encWrite 1 [b]) s =
      .next ({ s with
        we := s.we.writeByte b
        enc := { s.enc with
          flags := s.enc.flags ||| BitVec.ofNat 8 (2 ^ s.enc.ntok.toNat)
          ntok := s.enc.ntok + 1
          stage := s.enc.stage ++ [b] } }.answered
        { status := .ok, count := 1, out := [], info := none })

/-- R120, R125, R128: the eighth token of a block flushes it, one sink write of the flag byte and the payload.
If the sink answers `Ok` the block state is reset; if it answers `Err(e)` the Encoder is failed and the command
responds SINK_ERR with `COUNT = 0` and `e`. Here the token is a Literal of a one-byte ENC_WRITE; the sink's
answer is whatever its interface gives, scripted or free. -/
def Obligations.EighthTokenFlushesTheBlock : Prop :=
  ∀ (b : Byte) (s t : State) (a : SinkAnswer) (e : Encoder), s.enc.st = .ok → s.enc.ntok = 7 →
    e = { s.enc with flags := s.enc.flags ||| 0x80, ntok := 8, stage := s.enc.stage ++ [b] } →
      ({ s with we := s.we.writeByte b, enc := e } : State).sinkWrite
          (wireFlags s.cfg.flagReversed e.flags :: e.stage) = (a, t) →
        (a = .ok →
          exec (.encWrite 1 [b]) s =
            .next (({ t with enc := { e with flags := 0, ntok := 0, stage := [] } } : State).answered
              { status := .ok, count := 1, out := [], info := none })) ∧
          ∀ err, a = .err err →
            exec (.encWrite 1 [b]) s =
              .next (({ t with enc := { e with st := .sinkErr, info := err } } : State).answered
                { status := .sinkErr, count := 0, out := [], info := some err })

/-- R120, R124, R128, R129, R174: whatever the Encoder's state and the sink's answers, an ENC_WRITE answers once.
It writes to `WE` a prefix of its data and nothing else, all of it when it responds OK; it responds OK with
`COUNT = N` when the Encoder stays open, else the Encoder's status with `COUNT = 0`; it only appends to the
blocks on the sink; and it leaves the Decoder's side as it was. -/
def Obligations.EncWriteAnswersAndConsumesAPrefix : Prop :=
  ∀ (n : BitVec 16) (data : List Byte) (s : State), data.length = n.toNat →
    ∃ (t : State) (r : Response) (k : Nat) (blocks : List (List Byte)),
      exec (.encWrite n data) s = .next t ∧
        t.port = { s.port with responses := s.port.responses ++ [r] } ∧
        k ≤ data.length ∧ t.we = s.we.writeBytes (data.take k) ∧
        t.sink.blocks = s.sink.blocks ++ blocks ∧
        (t.enc.st = .ok → r = { status := .ok, count := n, out := [], info := none } ∧ k = data.length) ∧
        (t.enc.st ≠ .ok →
          r = { status := t.enc.st.status, count := 0, out := [],
                info := if t.enc.st = .sinkErr then some t.enc.info else none }) ∧
        (s.enc.st ≠ .ok → t = s.answered r) ∧
        s.sameDecoder t ∧ t.wePort = s.wePort ∧ t.cfg = s.cfg

/-- R120, R124: an open Encoder whose sink does not fail takes all of the data and responds OK with
`COUNT = N`. -/
def Obligations.EncWriteTakesAllWhenTheSinkAccepts : Prop :=
  ∀ (n : BitVec 16) (data : List Byte) (s : State), data.length = n.toNat → s.enc.st = .ok →
    s.sink.accepts data.length →
      ∃ t : State, exec (.encWrite n data) s = .next t ∧ t.enc.st = .ok ∧ (s.enc.Inv → t.enc.Inv) ∧
        t.we = s.we.writeBytes data ∧
        t.port = { s.port with
          responses := s.port.responses ++ [{ status := .ok, count := n, out := [], info := none }] }

/-- R60, R83, R133: every block an ENC_WRITE or an ENC_CLOSE puts on the sink is 2 to 17 bytes long. -/
def Obligations.SinkBlocksAreTwoToSeventeenBytes : Prop :=
  ∀ (i : Instr) (s t : State), (i = .encClose ∨ ∃ n data, i = .encWrite n data) → s.enc.Inv →
    exec i s = .next t →
      ∃ blocks, t.sink.blocks = s.sink.blocks ++ blocks ∧ ∀ bl ∈ blocks, 2 ≤ bl.length ∧ bl.length ≤ 17

/-- R126: the flag byte FLUSH writes. Token `i`'s flag is at wire bit `i`, or `7 - i` in the reversed order; a bit
with no token is 1. -/
def Obligations.FlagBytePadsWithOnes : Prop :=
  ∀ (cfg : Config) (e : Encoder) (i : Nat), i < 8 →
    (flagByte cfg e).getLsbD (if cfg.flagReversed then 7 - i else i) =
      if i < e.ntok.toNat then e.flags.getLsbD i else true

/-- R127: ENC_CLOSE. A unit not open answers its status; an empty block is not written; a pending block is
flushed by one sink write, and the close succeeds or fails with it. The sink's answer is whatever its interface
gives, scripted or free. -/
def Obligations.EncCloseFlushesAndCloses : Prop :=
  ∀ s : State,
    (s.enc.st ≠ .ok →
      exec .encClose s = .next (s.answered
        { status := s.enc.st.status, count := 0, out := [],
          info := if s.enc.st = .sinkErr then some s.enc.info else none })) ∧
    (s.enc.st = .ok → s.enc.ntok = 0 →
      exec .encClose s = .next (({ s with enc := { s.enc with st := .closed } } : State).answered
        { status := .ok, count := 0, out := [], info := none })) ∧
    (∀ a t, s.enc.st = .ok → s.enc.ntok ≠ 0 → s.sinkWrite (flagByte s.cfg s.enc :: s.enc.stage) = (a, t) →
      (a = .ok →
        exec .encClose s =
          .next (({ t with enc := { s.enc with st := .closed, flags := 0, ntok := 0, stage := [] } } : State).answered
            { status := .ok, count := 0, out := [], info := none })) ∧
      ∀ err, a = .err err →
        exec .encClose s =
          .next (({ t with enc := { s.enc with st := .sinkErr, info := err } } : State).answered
            { status := .sinkErr, count := 0, out := [], info := some err }))

/-! ### Decoder (42_decoder.md) -/

/-- R71, R84, R143: a FLAGS byte loads the sentinel at bit 8 over its eight bits, reversed in the legacy order;
nothing else changes. -/
def Obligations.FlagsLoadsSentinelAndBits : Prop :=
  ∀ (f : Byte) (s : State), ∃ v : BitVec 9,
    exec (.flags f) s = .next (s.setDec { s.dec with freg := v }) ∧ v.getLsbD 8 = true ∧
      ∀ i, i < 8 → v.getLsbD i = f.getLsbD (if s.cfg.flagReversed then 7 - i else i)

/-- R142, R145: a LIT byte goes to the buffer, or to the carry when the buffer is full, and is written to `WD` at
the pointer; every other slot and everything else is unchanged. -/
def Obligations.LitEmitsAndWritesItsByte : Prop :=
  ∀ (d : Byte) (s : State), s.wd.stored = true →
    ∃ y : Window,
      exec (.lit d) s =
          .next (if s.read.out.length < s.read.cap
            then (s.setRead { s.read with out := s.read.out ++ [d] }).setWd y
            else (s.setDec { s.dec with carry := s.dec.carry ++ [d] }).setWd y) ∧
        y.buf.read s.wd.ptr.toNat = d ∧
        (∀ a, a ≠ s.wd.ptr.toNat → y.buf.read a = s.wd.buf.read a) ∧
        y.ptr.toNat = (s.wd.ptr.toNat + 1) % W ∧ y.fill.val = min (s.wd.fill.val + 1) W

/-- R147: after a flag byte is loaded, eight shifts and no fewer return the register to NeedFlags. -/
def Obligations.EightShiftsReturnToNeedFlags : Prop :=
  ∀ (cfg : Config) (f : Byte) (k : Nat), k ≤ 8 → (loadedFlags cfg f >>> k = 1 ↔ k = 8)

/-- R140: DEC_READ on an open Decoder drains the carry and then takes turns while there is room; a turn that ends
the command ends it; with no room left it responds OK. The model bounds its loop by the capacity (log 18): the bound
cuts nothing off. -/
def Obligations.DecReadTakesTurnsUntilFull : Prop :=
  (∀ (cap : BitVec 16) (s : State), s.dec.st = .ok →
    exec (.decRead cap) s = .next (readLoop cap.toNat (s.setRead { cap := cap.toNat, out := [] }).drain)) ∧
    (∀ (k : Nat) (s : State), s.read.cap ≤ s.read.out.length → readLoop k s = s.respondRead .ok none) ∧
    ∀ (k : Nat) (s t : State), s.read.out.length < s.read.cap → s.read.cap - s.read.out.length ≤ k →
      (readTurn s = .ended t → readLoop k s = t) ∧
        (readTurn s = .goOn t → readLoop k s = readLoop (t.read.cap - t.read.out.length) t)

/-- R140, R148, R149, R152, R204: DEC_READ on an open Decoder completes with one response. What was carried and
what it decodes are, in order, what it returns and what it carries then; the bytes decoded are the bytes written
to `WD`, at most `cap + 17`; it responds OK with exactly `cap` bytes and stays open, or END, or SOURCE_ERR with
the source's error value, both with nothing carried; the Encoder's side is as it was. -/
def Obligations.DecReadDeliversWhatItDecodes : Prop :=
  ∀ (cap : BitVec 16) (s : State), s.dec.st = .ok →
    ∃ (t : State) (r : Response) (bs : List Byte),
      exec (.decRead cap) s = .next t ∧
        t.port = { s.port with responses := s.port.responses ++ [r] } ∧
        t.wd = s.wd.writeBytes bs ∧ bs.length ≤ cap.toNat + 17 ∧
        s.dec.carry ++ bs = r.out ++ t.dec.carry ∧
        r.count.toNat = r.out.length ∧ r.out.length ≤ cap.toNat ∧
        ((r.status = .ok ∧ r.info = none ∧ t.dec.st = .ok ∧ r.out.length = cap.toNat) ∨
          (r.status = .endOfStream ∧ r.info = none ∧ t.dec.st = .endOfStream ∧ t.dec.carry = []) ∨
          (r.status = .sourceErr ∧ r.info = some t.dec.info ∧ t.dec.st = .sourceErr ∧ t.dec.carry = [])) ∧
        s.sameEncoder t ∧ t.wdPort = s.wdPort ∧ t.read = ReadContext.idle ∧ t.cfg = s.cfg

/-- R141, R199: a DEC_READ whose carry fills the buffer returns carried bytes in order, keeps the rest, and
neither reads the source nor touches `WD`. -/
def Obligations.CarriedBytesComeFirst : Prop :=
  ∀ (cap : BitVec 16) (s : State), s.dec.st = .ok → cap.toNat ≤ s.dec.carry.length →
    exec (.decRead cap) s =
      .next (({ s with
        dec := { s.dec with carry := s.dec.carry.drop cap.toNat }
        read := ReadContext.idle } : State).answered
        { status := .ok, count := cap, out := s.dec.carry.take cap.toNat, info := none })

/-- R155: a DEC_READ of capacity 0 on an open Decoder responds OK 0 and changes nothing. That no DEC_READ is in
progress (log 7) holds between commands. -/
def Obligations.DecReadOfZeroChangesNothing : Prop :=
  ∀ s : State, s.dec.st = .ok → s.read = ReadContext.idle →
    exec (.decRead 0) s = .next (s.answered { status := .ok, count := 0, out := [], info := none })

/-- R148, R149, R175: a DEC_READ that has nothing carried and whose first source read finds the end or fails
responds END or SOURCE_ERR with no bytes, and writes the status and error registers only. -/
def Obligations.FirstReadAnswerEndsTheCommand : Prop :=
  ∀ (cap : BitVec 16) (s : State) (rest : List SourceAnswer), s.dec.st = .ok → s.dec.carry = [] → 0 < cap.toNat →
    (s.source.answers = .eof :: rest →
      exec (.decRead cap) s =
        .next (({ s with
          source := { s.source with answers := rest }
          dec := { s.dec with st := .endOfStream }
          read := ReadContext.idle } : State).answered
          { status := .endOfStream, count := 0, out := [], info := none })) ∧
      ∀ e, s.source.answers = .err e :: rest →
        exec (.decRead cap) s =
          .next (({ s with
            source := { s.source with answers := rest }
            dec := { s.dec with st := .sourceErr, info := e }
            read := ReadContext.idle } : State).answered
            { status := .sourceErr, count := 0, out := [], info := some e })

/-- R148 (a MATCH whose second byte is missing): the byte read is dropped, nothing is decoded, `WD` and the flag
register stay, and the command responds END. -/
def Obligations.TruncatedMatchProducesNothing : Prop :=
  ∀ (cap : BitVec 16) (s : State) (b0 : Byte) (rest : List SourceAnswer),
    s.dec.st = .ok → s.dec.carry = [] → 0 < cap.toNat → wireKind s.dec.freg = .matching →
      s.source.answers = .byte b0 :: .eof :: rest →
        exec (.decRead cap) s =
          .next (({ s with
            source := { s.source with answers := rest, pos := s.source.pos + 1 }
            dec := { s.dec with st := .endOfStream }
            read := ReadContext.idle } : State).answered
            { status := .endOfStream, count := 0, out := [], info := none })

/-- R151: DEC_CLOSE. From OK or END it closes, drops the carry and responds OK; in a terminal state it answers
that state; it never reads the source. -/
def Obligations.DecCloseClosesAndDropsTheCarry : Prop :=
  ∀ s : State,
    ((s.dec.st = .ok ∨ s.dec.st = .endOfStream) →
      exec .decClose s = .next (({ s with dec := { s.dec with st := .closed, carry := [] } } : State).answered
        { status := .ok, count := 0, out := [], info := none })) ∧
      ((s.dec.st = .closed ∨ s.dec.st = .sourceErr ∨ s.dec.st = .corrupt) →
        exec .decClose s = .next (s.answered
          { status := s.dec.st.status, count := 0, out := [],
            info := if s.dec.st = .sourceErr then some s.dec.info else none }))

/-! ### Errors and the command port (60_exceptions.md) -/

/-- R129, R172 and R154: a unit that is closed or has failed answers that to every command, with its error value after
a collaborator's failure, reading and writing nothing; so does a Decoder at END to a DEC_READ. -/
def Obligations.StickyUnitsAnswerTheirStatus : Prop :=
  (∀ (n : BitVec 16) (data : List Byte) (s : State), data.length = n.toNat → s.enc.st ≠ .ok →
    exec (.encWrite n data) s = exec .encClose s ∧
      exec .encClose s = .next (s.answered
        { status := if s.enc.st = .closed then .closed else .sinkErr, count := 0, out := [],
          info := if s.enc.st = .closed then none else some s.enc.info })) ∧
    (∀ (cap : BitVec 16) (s : State), s.dec.st ≠ .ok →
      exec (.decRead cap) s = .next (s.answered
        { status := s.dec.st.status, count := 0, out := [],
          info := if s.dec.st = .sourceErr then some s.dec.info else none }))

/-- R80, R173, R185: a command word that is no command, by its fields, answers ILLEGAL_CMD with `COUNT = 0` in
every state of the units, and changes nothing else; its data is ignored. How the inputs stand in State is logs 8, 9. -/
def Obligations.IllegalWordIsOnlyAnswered : Prop :=
  ∀ (s : State) (w : BitVec 32) (data : List Byte) (rest : List HostInput), s.quiet →
    s.port.pending = .command w data :: rest →
      (w.toNat % 16 = 0 ∨ 5 ≤ w.toNat % 16 ∨ w.toNat / 16 % 4096 ≠ 0 ∨
        ((w.toNat % 16 = 2 ∨ w.toNat % 16 = 4) ∧ w.toNat / 65536 ≠ 0)) →
        step s = .next (({ s with port := { s.port with pending := rest } } : State).answered
          { status := .illegalCmd, count := 0, out := [], info := none })

/-- R185: ILLEGAL_CMD completes in every state, changing nothing but the responses. -/
def Obligations.IllegalCommandCompletes : Prop :=
  ∀ (n : BitVec 16) (rsv : BitVec 12) (op : BitVec 4) (s : State),
    exec (.illegalCmd n rsv op) s =
      .next (s.answered { status := .illegalCmd, count := 0, out := [], info := none })

/-- R24, R29, R172, R176: only its reset takes a unit out of a terminal state; until then no step changes its
registers or calls its collaborator. From END a Decoder goes only to CLOSED. -/
def Obligations.OnlyResetLeavesATerminalState : Prop :=
  ∀ s t : State, step s = .next t →
    (s.enc.st ≠ .ok → (∀ answers u, s.fetch ≠ (.encReset answers, u)) → t.enc = s.enc ∧ t.sink = s.sink) ∧
      (s.dec.st.terminal = true → (∀ answers u, s.fetch ≠ (.decReset answers, u)) →
        t.dec = s.dec ∧ t.source = s.source) ∧
      (s.dec.st = .endOfStream → (∀ answers u, s.fetch ≠ (.decReset answers, u)) →
        t.source = s.source ∧ (t.dec.st = .endOfStream ∨ t.dec.st = .closed))

/-- R13, R171: with no Window request driven, a step completes, unless the host presents what it cannot: an
ENC_WRITE whose data has another length than its word says. No step of a host faults. -/
def Obligations.HostStepsCompleteOrRefuseABadLength : Prop :=
  ∀ s : State, s.quiet →
    (∃ t, step s = .next t) ∨
      (step s = .refused .dataLengthMismatch ∧
        ∃ w data rest, s.port.pending = .command w data :: rest ∧ w.toNat % 65536 = 1 ∧
          data.length ≠ w.toNat / 65536)

/-! ### The two units (60_exceptions.md R181, 20_memory.md R65) -/

/-- R65, R172, R181: what an Encoder command does to the Encoder's side, and what it answers, depends on the
Encoder's side and the configuration alone; the Decoder's side is untouched. -/
def Obligations.EncoderDoesNotSeeTheDecoder : Prop :=
  ∀ (i : Instr) (s s' t : State), (i = .encClose ∨ ∃ n data, i = .encWrite n data) → s.sameEncoder s' →
    s'.cfg = s.cfg → exec i s = .next t →
      s.sameDecoder t ∧
        ∃ t' r, exec i s' = .next t' ∧ t.sameEncoder t' ∧ s'.sameDecoder t' ∧
          t.port.responses = s.port.responses ++ [r] ∧ t'.port.responses = s'.port.responses ++ [r]

/-- R65, R172, R181: what a Decoder command does to the Decoder's side, and what it answers, depends on the
Decoder's side and the configuration alone; the Encoder's side is untouched. -/
def Obligations.DecoderDoesNotSeeTheEncoder : Prop :=
  ∀ (i : Instr) (s s' t : State), (i = .decClose ∨ ∃ cap, i = .decRead cap) → s.sameDecoder s' →
    s'.cfg = s.cfg → exec i s = .next t →
      s.sameEncoder t ∧
        ∃ t' r, exec i s' = .next t' ∧ t.sameDecoder t' ∧ s'.sameEncoder t' ∧
          t.port.responses = s.port.responses ++ [r] ∧ t'.port.responses = s'.port.responses ++ [r]

/-! ### What every step keeps -/

/-- R37: no step changes the configuration inputs. -/
def Obligations.ConfigurationNeverChanges : Prop :=
  ∀ s t : State, step s = .next t → t.cfg = s.cfg

/-- R23, R28, R30, R32, R41: the invariant holds at power-up. -/
def Obligations.PowerUpStateIsInvariant : Prop :=
  State.reset.Inv

/-- R23, R26, R28, R30, R32, R133, R152: every step keeps the invariant, from every state that has it: the storage
of both Windows in canonical form and unwritten slots zero, the block state consistent, the flag register a
sentinel over its bits, the carry within 17 bytes and empty unless the Decoder is open. -/
def Obligations.EveryStepKeepsTheInvariant : Prop :=
  ∀ s t : State, s.Inv → step s = .next t → t.Inv

/-! ### Headlines -/

/-- R153: two DEC_READs return what one of the added capacity returns, and leave the same Decoder, Window and
source, from every state with an open Decoder. -/
def Obligations.ReadsMaySplitAnywhere : Prop :=
  ∀ (m n k : BitVec 16) (s : State), s.dec.st = .ok → k.toNat = m.toNat + n.toNat →
    ∃ (t u v : State) (r1 r2 r : Response),
      exec (.decRead m) s = .next t ∧ exec (.decRead n) t = .next u ∧ exec (.decRead k) s = .next v ∧
        t.port.responses = s.port.responses ++ [r1] ∧
        u.port.responses = s.port.responses ++ [r1, r2] ∧
        v.port.responses = s.port.responses ++ [r] ∧
        r.out = r1.out ++ r2.out ∧ r.status = r2.status ∧ r.info = r2.info ∧
        v.dec = u.dec ∧ v.wd = u.wd ∧ v.source = u.source

/-- R3, R131, R153, R156: the round trip. A fresh Encoder whose sink accepts takes the chunks of `x` and closes;
a fresh Decoder with the same configuration and an identically seeded Window, whose source gives the bytes on
that sink, delivers through DEC_READs of any capacities the first bytes of `x`, as many as the capacities add up
to; it is at END when they add up to more than `x` has, and then the two Windows are equal. -/
def Obligations.DecoderOfEncoderIsTheInput : Prop :=
  ∀ (chunks : List (List Byte)) (s : State),
    (∀ c ∈ chunks, c.length < 65536) → s.enc.fresh → s.we.stored = true → s.sink.blocks = [] →
      s.sink.accepts (chunks.flatten.length + 1) →
        ∃ u : State, encodeAll chunks s = .next u ∧ u.enc.st = .closed ∧
          ∀ (caps : List (BitVec 16)) (d : State),
            d.cfg = s.cfg → d.wd = s.we → d.dec.fresh → d.source.holds u.sink.blocks.flatten →
              ∃ (v : State) (rs : List Response), readAll caps d = .next v ∧
                v.port.responses = d.port.responses ++ rs ∧
                delivered rs = chunks.flatten.take ((caps.map BitVec.toNat).sum) ∧
                (chunks.flatten.length < (caps.map BitVec.toNat).sum →
                  v.dec.st = .endOfStream ∧ v.wd = u.we)
end

