-- ==== Sys2Proof/Laws/Memory.lean ====
section
/-! SUPPORT. The laws of a Window's storage: reading after writing, and that every operation keeps the canonical
form. -/

namespace Sys2Proof.Machine

open Sys2Proof

/-- The canonical form, head by head. -/
theorem Memory.wf_cons_iff (k : Nat) (v : Byte) (m : Memory) :
    Memory.wf ((k, v) :: m) = true ↔ v ≠ Memory.unlisted ∧ (∀ c ∈ m, k < c.1) ∧ Memory.wf m = true := by
  induction m generalizing k v with
  | nil => simp [Memory.wf]
  | cons c m ih =>
    obtain ⟨k', v'⟩ := c
    have hw : Memory.wf ((k, v) :: (k', v') :: m) =
        (v != Memory.unlisted && decide (k < k') && Memory.wf ((k', v') :: m)) := rfl
    rw [hw]
    constructor
    · intro h
      simp only [Bool.and_eq_true, bne_iff_ne, ne_eq, decide_eq_true_eq] at h
      refine ⟨h.1.1, ?_, h.2⟩
      intro c hc
      rcases List.mem_cons.1 hc with rfl | hc
      · exact h.1.2
      · exact lt_trans h.1.2 (((ih k' v').1 h.2).2.1 c hc)
    · rintro ⟨h1, h2, h3⟩
      simp only [Bool.and_eq_true, bne_iff_ne, ne_eq, decide_eq_true_eq]
      exact ⟨⟨h1, h2 _ List.mem_cons_self⟩, h3⟩

/-- An address below every listed one is not listed. -/
theorem Memory.read_below (m : Memory) (a : Nat) (h : ∀ c ∈ m, a < c.1) : Memory.read m a = Memory.unlisted := by
  cases m with
  | nil => rfl
  | cons c m => simp [Memory.read, h c List.mem_cons_self]

theorem Memory.mem_cons_cell {a : Nat} {b : Byte} {m : Memory} {c : Host.Cell} (h : c ∈ Memory.cons a b m) :
    c = (a, b) ∨ c ∈ m := by
  unfold Memory.cons at h
  split at h
  · exact .inr h
  · exact List.mem_cons.1 h

/-- A write lists no address but its own beside those listed before. -/
theorem Memory.mem_write {m : Memory} {a : Nat} {b : Byte} {c : Host.Cell} (h : c ∈ Memory.write m a b) :
    c = (a, b) ∨ c ∈ m := by
  induction m with
  | nil => exact Memory.mem_cons_cell h
  | cons d m ih =>
    obtain ⟨k, v⟩ := d
    simp only [Memory.write] at h
    split at h
    · exact Memory.mem_cons_cell h
    · split at h
      · rcases Memory.mem_cons_cell h with h | h
        · exact .inl h
        · exact .inr (List.mem_cons_of_mem _ h)
      · rcases List.mem_cons.1 h with rfl | h
        · exact .inr List.mem_cons_self
        · rcases ih h with h | h
          · exact .inl h
          · exact .inr (List.mem_cons_of_mem _ h)

theorem Memory.wf_cons {m : Memory} {a : Nat} (b : Byte) (hm : Memory.wf m = true) (ha : ∀ c ∈ m, a < c.1) :
    Memory.wf (Memory.cons a b m) = true := by
  unfold Memory.cons
  split
  · exact hm
  · exact (Memory.wf_cons_iff a b m).2 ⟨‹_›, ha, hm⟩

/-- A write keeps the canonical form. -/
theorem Memory.wf_write {m : Memory} (hm : Memory.wf m = true) (a : Nat) (b : Byte) :
    Memory.wf (Memory.write m a b) = true := by
  induction m with
  | nil => exact Memory.wf_cons b rfl (by simp)
  | cons d m ih =>
    obtain ⟨k, v⟩ := d
    obtain ⟨hv, hk, hm'⟩ := (Memory.wf_cons_iff k v m).1 hm
    simp only [Memory.write]
    split
    · rename_i hlt
      refine Memory.wf_cons b hm ?_
      intro c hc
      rcases List.mem_cons.1 hc with rfl | hc
      · exact hlt
      · exact lt_trans hlt (hk c hc)
    · split
      · rename_i heq
        exact Memory.wf_cons b hm' (heq ▸ hk)
      · refine (Memory.wf_cons_iff k v _).2 ⟨hv, ?_, ih hm'⟩
        intro c hc
        rcases Memory.mem_write hc with rfl | hc
        · show k < a
          omega
        · exact hk c hc

theorem Memory.read_cons_same (m : Memory) (a : Nat) (b : Byte) (ha : ∀ c ∈ m, a < c.1) :
    Memory.read (Memory.cons a b m) a = b := by
  unfold Memory.cons
  split
  · rename_i hb
    rw [Memory.read_below m a ha, hb]
  · simp [Memory.read]

theorem Memory.read_cons_ne (m : Memory) {a a' : Nat} (b : Byte) (ha : ∀ c ∈ m, a < c.1) (h : a' ≠ a) :
    Memory.read (Memory.cons a b m) a' = Memory.read m a' := by
  unfold Memory.cons
  split
  · rfl
  · simp only [Memory.read]
    split
    · rename_i hlt
      exact (Memory.read_below m a' fun c hc => lt_trans hlt (ha c hc)).symm
    · simp

/-- Reading where a byte was written gives it. -/
theorem Memory.read_write_same {m : Memory} (hm : Memory.wf m = true) (a : Nat) (b : Byte) :
    Memory.read (Memory.write m a b) a = b := by
  induction m with
  | nil => exact Memory.read_cons_same [] a b (by simp)
  | cons d m ih =>
    obtain ⟨k, v⟩ := d
    obtain ⟨_, hk, hm'⟩ := (Memory.wf_cons_iff k v m).1 hm
    simp only [Memory.write]
    split
    · rename_i hlt
      refine Memory.read_cons_same _ a b ?_
      intro c hc
      rcases List.mem_cons.1 hc with rfl | hc
      · exact hlt
      · exact lt_trans hlt (hk c hc)
    · split
      · rename_i heq
        exact Memory.read_cons_same m a b (heq ▸ hk)
      · rename_i h1 h2
        simp [Memory.read, h1, h2, ih hm']

/-- A write leaves every other address alone. -/
theorem Memory.read_write_ne {m : Memory} (hm : Memory.wf m = true) {a a' : Nat} (b : Byte) (h : a' ≠ a) :
    Memory.read (Memory.write m a b) a' = Memory.read m a' := by
  induction m with
  | nil => exact Memory.read_cons_ne [] b (by simp) h
  | cons d m ih =>
    obtain ⟨k, v⟩ := d
    obtain ⟨_, hk, hm'⟩ := (Memory.wf_cons_iff k v m).1 hm
    simp only [Memory.write]
    split
    · rename_i hlt
      refine Memory.read_cons_ne _ b ?_ h
      intro c hc
      rcases List.mem_cons.1 hc with rfl | hc
      · exact hlt
      · exact lt_trans hlt (hk c hc)
    · split
      · rename_i heq
        subst heq
        rw [Memory.read_cons_ne m b hk h]
        simp only [Memory.read]
        split
        · rename_i hlt
          exact Memory.read_below m a' fun c hc => lt_trans hlt (hk c hc)
        · simp
      · simp only [Memory.read, ih hm']

/-- Reading after a write, in one lemma. -/
theorem Memory.read_write {m : Memory} (hm : Memory.wf m = true) (a a' : Nat) (b : Byte) :
    Memory.read (Memory.write m a b) a' = if a' = a then b else Memory.read m a' := by
  split
  · rename_i h
    rw [h, Memory.read_write_same hm]
  · rename_i h
    exact Memory.read_write_ne hm b h

/-- Canonical memories that read alike everywhere are equal. -/
theorem Memory.ext_read {m m' : Memory} (hm : Memory.wf m = true) (hm' : Memory.wf m' = true)
    (h : ∀ a, Memory.read m a = Memory.read m' a) : m = m' := by
  induction m generalizing m' with
  | nil =>
    cases m' with
    | nil => rfl
    | cons d m' =>
      obtain ⟨k, v⟩ := d
      have := h k
      simp only [Memory.read, lt_irrefl, if_false, if_true] at this
      exact absurd this.symm ((Memory.wf_cons_iff k v m').1 hm').1
  | cons d m ih =>
    obtain ⟨k, v⟩ := d
    obtain ⟨hv, hk, hmw⟩ := (Memory.wf_cons_iff k v m).1 hm
    cases m' with
    | nil =>
      have := h k
      simp only [Memory.read, lt_irrefl, if_false, if_true] at this
      exact absurd this hv
    | cons d' m' =>
      obtain ⟨k', v'⟩ := d'
      obtain ⟨hv', hk', hmw'⟩ := (Memory.wf_cons_iff k' v' m').1 hm'
      have hkk : k = k' := by
        rcases lt_trichotomy k k' with hlt | heq | hgt
        · have := h k
          simp only [Memory.read, lt_irrefl, if_false, if_true, hlt] at this
          exact absurd this hv
        · exact heq
        · have := h k'
          simp only [Memory.read, lt_irrefl, if_false, if_true, hgt] at this
          exact absurd this.symm hv'
      subst hkk
      have hvv : v = v' := by simpa [Memory.read] using h k
      subst hvv
      congr 1
      refine ih hmw hmw' fun a => ?_
      rcases lt_trichotomy a k with hlt | heq | hgt
      · rw [Memory.read_below m a fun c hc => lt_trans hlt (hk c hc),
          Memory.read_below m' a fun c hc => lt_trans hlt (hk' c hc)]
      · subst heq
        rw [Memory.read_below m a hk, Memory.read_below m' a hk']
      · have := h a
        simpa [Memory.read, not_lt.2 hgt.le, (ne_of_gt hgt)] using this

end Sys2Proof.Machine
end

