-- ==== Sys2Proof/Laws/State.lean ====
section
/-! SUPPORT. One lemma per field and update of State, and the other record facts that spare a later proof from
unfolding an update. -/

namespace Sys2Proof.Machine

open Sys2Proof

variable (s : State)

/-! ### setWe -/

@[simp] theorem State.setWe_cfg (x : Window) : (s.setWe x).cfg = s.cfg := rfl
@[simp] theorem State.setWe_we (x : Window) : (s.setWe x).we = x := rfl
@[simp] theorem State.setWe_wd (x : Window) : (s.setWe x).wd = s.wd := rfl
@[simp] theorem State.setWe_wePort (x : Window) : (s.setWe x).wePort = s.wePort := rfl
@[simp] theorem State.setWe_wdPort (x : Window) : (s.setWe x).wdPort = s.wdPort := rfl
@[simp] theorem State.setWe_enc (x : Window) : (s.setWe x).enc = s.enc := rfl
@[simp] theorem State.setWe_dec (x : Window) : (s.setWe x).dec = s.dec := rfl
@[simp] theorem State.setWe_read (x : Window) : (s.setWe x).read = s.read := rfl
@[simp] theorem State.setWe_sink (x : Window) : (s.setWe x).sink = s.sink := rfl
@[simp] theorem State.setWe_source (x : Window) : (s.setWe x).source = s.source := rfl
@[simp] theorem State.setWe_port (x : Window) : (s.setWe x).port = s.port := rfl
@[simp] theorem State.setWe_setWe (x x' : Window) : (s.setWe x).setWe x' = s.setWe x' := rfl

/-! ### setWd -/

@[simp] theorem State.setWd_cfg (x : Window) : (s.setWd x).cfg = s.cfg := rfl
@[simp] theorem State.setWd_we (x : Window) : (s.setWd x).we = s.we := rfl
@[simp] theorem State.setWd_wd (x : Window) : (s.setWd x).wd = x := rfl
@[simp] theorem State.setWd_wePort (x : Window) : (s.setWd x).wePort = s.wePort := rfl
@[simp] theorem State.setWd_wdPort (x : Window) : (s.setWd x).wdPort = s.wdPort := rfl
@[simp] theorem State.setWd_enc (x : Window) : (s.setWd x).enc = s.enc := rfl
@[simp] theorem State.setWd_dec (x : Window) : (s.setWd x).dec = s.dec := rfl
@[simp] theorem State.setWd_read (x : Window) : (s.setWd x).read = s.read := rfl
@[simp] theorem State.setWd_sink (x : Window) : (s.setWd x).sink = s.sink := rfl
@[simp] theorem State.setWd_source (x : Window) : (s.setWd x).source = s.source := rfl
@[simp] theorem State.setWd_port (x : Window) : (s.setWd x).port = s.port := rfl
@[simp] theorem State.setWd_setWd (x x' : Window) : (s.setWd x).setWd x' = s.setWd x' := rfl

/-! ### setWePort -/

@[simp] theorem State.setWePort_cfg (p : WinPort) : (s.setWePort p).cfg = s.cfg := rfl
@[simp] theorem State.setWePort_we (p : WinPort) : (s.setWePort p).we = s.we := rfl
@[simp] theorem State.setWePort_wd (p : WinPort) : (s.setWePort p).wd = s.wd := rfl
@[simp] theorem State.setWePort_wePort (p : WinPort) : (s.setWePort p).wePort = p := rfl
@[simp] theorem State.setWePort_wdPort (p : WinPort) : (s.setWePort p).wdPort = s.wdPort := rfl
@[simp] theorem State.setWePort_enc (p : WinPort) : (s.setWePort p).enc = s.enc := rfl
@[simp] theorem State.setWePort_dec (p : WinPort) : (s.setWePort p).dec = s.dec := rfl
@[simp] theorem State.setWePort_read (p : WinPort) : (s.setWePort p).read = s.read := rfl
@[simp] theorem State.setWePort_sink (p : WinPort) : (s.setWePort p).sink = s.sink := rfl
@[simp] theorem State.setWePort_source (p : WinPort) : (s.setWePort p).source = s.source := rfl
@[simp] theorem State.setWePort_port (p : WinPort) : (s.setWePort p).port = s.port := rfl
@[simp] theorem State.setWePort_setWePort (p p' : WinPort) : (s.setWePort p).setWePort p' = s.setWePort p' := rfl

/-! ### setWdPort -/

@[simp] theorem State.setWdPort_cfg (p : WinPort) : (s.setWdPort p).cfg = s.cfg := rfl
@[simp] theorem State.setWdPort_we (p : WinPort) : (s.setWdPort p).we = s.we := rfl
@[simp] theorem State.setWdPort_wd (p : WinPort) : (s.setWdPort p).wd = s.wd := rfl
@[simp] theorem State.setWdPort_wePort (p : WinPort) : (s.setWdPort p).wePort = s.wePort := rfl
@[simp] theorem State.setWdPort_wdPort (p : WinPort) : (s.setWdPort p).wdPort = p := rfl
@[simp] theorem State.setWdPort_enc (p : WinPort) : (s.setWdPort p).enc = s.enc := rfl
@[simp] theorem State.setWdPort_dec (p : WinPort) : (s.setWdPort p).dec = s.dec := rfl
@[simp] theorem State.setWdPort_read (p : WinPort) : (s.setWdPort p).read = s.read := rfl
@[simp] theorem State.setWdPort_sink (p : WinPort) : (s.setWdPort p).sink = s.sink := rfl
@[simp] theorem State.setWdPort_source (p : WinPort) : (s.setWdPort p).source = s.source := rfl
@[simp] theorem State.setWdPort_port (p : WinPort) : (s.setWdPort p).port = s.port := rfl
@[simp] theorem State.setWdPort_setWdPort (p p' : WinPort) : (s.setWdPort p).setWdPort p' = s.setWdPort p' := rfl

/-! ### setEnc -/

@[simp] theorem State.setEnc_cfg (e : Encoder) : (s.setEnc e).cfg = s.cfg := rfl
@[simp] theorem State.setEnc_we (e : Encoder) : (s.setEnc e).we = s.we := rfl
@[simp] theorem State.setEnc_wd (e : Encoder) : (s.setEnc e).wd = s.wd := rfl
@[simp] theorem State.setEnc_wePort (e : Encoder) : (s.setEnc e).wePort = s.wePort := rfl
@[simp] theorem State.setEnc_wdPort (e : Encoder) : (s.setEnc e).wdPort = s.wdPort := rfl
@[simp] theorem State.setEnc_enc (e : Encoder) : (s.setEnc e).enc = e := rfl
@[simp] theorem State.setEnc_dec (e : Encoder) : (s.setEnc e).dec = s.dec := rfl
@[simp] theorem State.setEnc_read (e : Encoder) : (s.setEnc e).read = s.read := rfl
@[simp] theorem State.setEnc_sink (e : Encoder) : (s.setEnc e).sink = s.sink := rfl
@[simp] theorem State.setEnc_source (e : Encoder) : (s.setEnc e).source = s.source := rfl
@[simp] theorem State.setEnc_port (e : Encoder) : (s.setEnc e).port = s.port := rfl
@[simp] theorem State.setEnc_setEnc (e e' : Encoder) : (s.setEnc e).setEnc e' = s.setEnc e' := rfl

/-! ### setDec -/

@[simp] theorem State.setDec_cfg (d : Decoder) : (s.setDec d).cfg = s.cfg := rfl
@[simp] theorem State.setDec_we (d : Decoder) : (s.setDec d).we = s.we := rfl
@[simp] theorem State.setDec_wd (d : Decoder) : (s.setDec d).wd = s.wd := rfl
@[simp] theorem State.setDec_wePort (d : Decoder) : (s.setDec d).wePort = s.wePort := rfl
@[simp] theorem State.setDec_wdPort (d : Decoder) : (s.setDec d).wdPort = s.wdPort := rfl
@[simp] theorem State.setDec_enc (d : Decoder) : (s.setDec d).enc = s.enc := rfl
@[simp] theorem State.setDec_dec (d : Decoder) : (s.setDec d).dec = d := rfl
@[simp] theorem State.setDec_read (d : Decoder) : (s.setDec d).read = s.read := rfl
@[simp] theorem State.setDec_sink (d : Decoder) : (s.setDec d).sink = s.sink := rfl
@[simp] theorem State.setDec_source (d : Decoder) : (s.setDec d).source = s.source := rfl
@[simp] theorem State.setDec_port (d : Decoder) : (s.setDec d).port = s.port := rfl
@[simp] theorem State.setDec_setDec (d d' : Decoder) : (s.setDec d).setDec d' = s.setDec d' := rfl

/-! ### setRead -/

@[simp] theorem State.setRead_cfg (r : ReadContext) : (s.setRead r).cfg = s.cfg := rfl
@[simp] theorem State.setRead_we (r : ReadContext) : (s.setRead r).we = s.we := rfl
@[simp] theorem State.setRead_wd (r : ReadContext) : (s.setRead r).wd = s.wd := rfl
@[simp] theorem State.setRead_wePort (r : ReadContext) : (s.setRead r).wePort = s.wePort := rfl
@[simp] theorem State.setRead_wdPort (r : ReadContext) : (s.setRead r).wdPort = s.wdPort := rfl
@[simp] theorem State.setRead_enc (r : ReadContext) : (s.setRead r).enc = s.enc := rfl
@[simp] theorem State.setRead_dec (r : ReadContext) : (s.setRead r).dec = s.dec := rfl
@[simp] theorem State.setRead_read (r : ReadContext) : (s.setRead r).read = r := rfl
@[simp] theorem State.setRead_sink (r : ReadContext) : (s.setRead r).sink = s.sink := rfl
@[simp] theorem State.setRead_source (r : ReadContext) : (s.setRead r).source = s.source := rfl
@[simp] theorem State.setRead_port (r : ReadContext) : (s.setRead r).port = s.port := rfl
@[simp] theorem State.setRead_setRead (r r' : ReadContext) : (s.setRead r).setRead r' = s.setRead r' := rfl

/-! ### setSink -/

@[simp] theorem State.setSink_cfg (k : Sink) : (s.setSink k).cfg = s.cfg := rfl
@[simp] theorem State.setSink_we (k : Sink) : (s.setSink k).we = s.we := rfl
@[simp] theorem State.setSink_wd (k : Sink) : (s.setSink k).wd = s.wd := rfl
@[simp] theorem State.setSink_wePort (k : Sink) : (s.setSink k).wePort = s.wePort := rfl
@[simp] theorem State.setSink_wdPort (k : Sink) : (s.setSink k).wdPort = s.wdPort := rfl
@[simp] theorem State.setSink_enc (k : Sink) : (s.setSink k).enc = s.enc := rfl
@[simp] theorem State.setSink_dec (k : Sink) : (s.setSink k).dec = s.dec := rfl
@[simp] theorem State.setSink_read (k : Sink) : (s.setSink k).read = s.read := rfl
@[simp] theorem State.setSink_sink (k : Sink) : (s.setSink k).sink = k := rfl
@[simp] theorem State.setSink_source (k : Sink) : (s.setSink k).source = s.source := rfl
@[simp] theorem State.setSink_port (k : Sink) : (s.setSink k).port = s.port := rfl
@[simp] theorem State.setSink_setSink (k k' : Sink) : (s.setSink k).setSink k' = s.setSink k' := rfl

/-! ### setSource -/

@[simp] theorem State.setSource_cfg (r : Source) : (s.setSource r).cfg = s.cfg := rfl
@[simp] theorem State.setSource_we (r : Source) : (s.setSource r).we = s.we := rfl
@[simp] theorem State.setSource_wd (r : Source) : (s.setSource r).wd = s.wd := rfl
@[simp] theorem State.setSource_wePort (r : Source) : (s.setSource r).wePort = s.wePort := rfl
@[simp] theorem State.setSource_wdPort (r : Source) : (s.setSource r).wdPort = s.wdPort := rfl
@[simp] theorem State.setSource_enc (r : Source) : (s.setSource r).enc = s.enc := rfl
@[simp] theorem State.setSource_dec (r : Source) : (s.setSource r).dec = s.dec := rfl
@[simp] theorem State.setSource_read (r : Source) : (s.setSource r).read = s.read := rfl
@[simp] theorem State.setSource_sink (r : Source) : (s.setSource r).sink = s.sink := rfl
@[simp] theorem State.setSource_source (r : Source) : (s.setSource r).source = r := rfl
@[simp] theorem State.setSource_port (r : Source) : (s.setSource r).port = s.port := rfl
@[simp] theorem State.setSource_setSource (r r' : Source) : (s.setSource r).setSource r' = s.setSource r' := rfl

/-! ### setPort -/

@[simp] theorem State.setPort_cfg (p : HostPort) : (s.setPort p).cfg = s.cfg := rfl
@[simp] theorem State.setPort_we (p : HostPort) : (s.setPort p).we = s.we := rfl
@[simp] theorem State.setPort_wd (p : HostPort) : (s.setPort p).wd = s.wd := rfl
@[simp] theorem State.setPort_wePort (p : HostPort) : (s.setPort p).wePort = s.wePort := rfl
@[simp] theorem State.setPort_wdPort (p : HostPort) : (s.setPort p).wdPort = s.wdPort := rfl
@[simp] theorem State.setPort_enc (p : HostPort) : (s.setPort p).enc = s.enc := rfl
@[simp] theorem State.setPort_dec (p : HostPort) : (s.setPort p).dec = s.dec := rfl
@[simp] theorem State.setPort_read (p : HostPort) : (s.setPort p).read = s.read := rfl
@[simp] theorem State.setPort_sink (p : HostPort) : (s.setPort p).sink = s.sink := rfl
@[simp] theorem State.setPort_source (p : HostPort) : (s.setPort p).source = s.source := rfl
@[simp] theorem State.setPort_port (p : HostPort) : (s.setPort p).port = p := rfl
@[simp] theorem State.setPort_setPort (p p' : HostPort) : (s.setPort p).setPort p' = s.setPort p' := rfl

/-! ### respond -/

@[simp] theorem State.respond_cfg (r : Response) : (s.respond r).cfg = s.cfg := rfl
@[simp] theorem State.respond_we (r : Response) : (s.respond r).we = s.we := rfl
@[simp] theorem State.respond_wd (r : Response) : (s.respond r).wd = s.wd := rfl
@[simp] theorem State.respond_wePort (r : Response) : (s.respond r).wePort = s.wePort := rfl
@[simp] theorem State.respond_wdPort (r : Response) : (s.respond r).wdPort = s.wdPort := rfl
@[simp] theorem State.respond_enc (r : Response) : (s.respond r).enc = s.enc := rfl
@[simp] theorem State.respond_dec (r : Response) : (s.respond r).dec = s.dec := rfl
@[simp] theorem State.respond_read (r : Response) : (s.respond r).read = s.read := rfl
@[simp] theorem State.respond_sink (r : Response) : (s.respond r).sink = s.sink := rfl
@[simp] theorem State.respond_source (r : Response) : (s.respond r).source = s.source := rfl
@[simp] theorem State.respond_pending (r : Response) : (s.respond r).port.pending = s.port.pending := rfl
@[simp] theorem State.respond_responses (r : Response) :
    (s.respond r).port.responses = s.port.responses ++ [r] := rfl

/-! ### Windows and ports by name -/

@[simp] theorem State.window_we : s.window .we = s.we := rfl
@[simp] theorem State.window_wd : s.window .wd = s.wd := rfl
@[simp] theorem State.winPort_we : s.winPort .we = s.wePort := rfl
@[simp] theorem State.winPort_wd : s.winPort .wd = s.wdPort := rfl
@[simp] theorem State.setWindow_we (x : Window) : s.setWindow .we x = s.setWe x := rfl
@[simp] theorem State.setWindow_wd (x : Window) : s.setWindow .wd x = s.setWd x := rfl
@[simp] theorem State.setWinPort_we (p : WinPort) : s.setWinPort .we p = s.setWePort p := rfl
@[simp] theorem State.setWinPort_wd (p : WinPort) : s.setWinPort .wd p = s.setWdPort p := rfl

@[simp] theorem State.setResult_cfg (x : WinId) (r : Option WinResult) : (s.setResult x r).cfg = s.cfg := by
  cases x <;> rfl
@[simp] theorem State.setResult_we (x : WinId) (r : Option WinResult) : (s.setResult x r).we = s.we := by
  cases x <;> rfl
@[simp] theorem State.setResult_wd (x : WinId) (r : Option WinResult) : (s.setResult x r).wd = s.wd := by
  cases x <;> rfl
@[simp] theorem State.setResult_enc (x : WinId) (r : Option WinResult) : (s.setResult x r).enc = s.enc := by
  cases x <;> rfl
@[simp] theorem State.setResult_dec (x : WinId) (r : Option WinResult) : (s.setResult x r).dec = s.dec := by
  cases x <;> rfl
@[simp] theorem State.setResult_read (x : WinId) (r : Option WinResult) : (s.setResult x r).read = s.read := by
  cases x <;> rfl
@[simp] theorem State.setResult_sink (x : WinId) (r : Option WinResult) : (s.setResult x r).sink = s.sink := by
  cases x <;> rfl
@[simp] theorem State.setResult_source (x : WinId) (r : Option WinResult) : (s.setResult x r).source = s.source := by
  cases x <;> rfl
@[simp] theorem State.setResult_port (x : WinId) (r : Option WinResult) : (s.setResult x r).port = s.port := by
  cases x <;> rfl

@[simp] theorem State.setResult_req (x y : WinId) (r : Option WinResult) :
    ((s.setResult x r).winPort y).req = (s.winPort y).req := by
  cases x <;> cases y <;> rfl

@[simp] theorem State.setResult_res (x : WinId) (r : Option WinResult) : ((s.setResult x r).winPort x).res = r := by
  cases x <;> rfl

@[simp] theorem State.window_setWindow (x : WinId) (w : Window) : (s.setWindow x w).window x = w := by
  cases x <;> rfl

/-! ### Flow -/

@[simp] theorem Flow.andThen_goOn (f : State → Flow) : (Flow.goOn s).andThen f = f s := rfl
@[simp] theorem Flow.andThen_ended (f : State → Flow) : (Flow.ended s).andThen f = .ended s := rfl
@[simp] theorem Flow.finish_goOn (f : State → State) : (Flow.goOn s).finish f = f s := rfl
@[simp] theorem Flow.finish_ended (f : State → State) : (Flow.ended s).finish f = s := rfl
@[simp] theorem Flow.state_goOn : (Flow.goOn s).state = s := rfl
@[simp] theorem Flow.state_ended : (Flow.ended s).state = s := rfl

end Sys2Proof.Machine
end

