-- ==== Sys2Proof/Laws/Window.lean ====
section
/-! SUPPORT. The laws of the Window operations: what WIN_WRITE and WIN_WRITES leave (R103, R104, R23), and what
WIN_FIND's walk, search and extension find (R100, R101). -/

namespace Sys2Proof.Machine

open Sys2Proof

/-! ### Index arithmetic -/

theorem index_toNat_lt (p : Index) : p.toNat < W := p.isLt

theorem index_succ_toNat (p : Index) : (p + 1).toNat = (p.toNat + 1) % W := by
  simp [BitVec.toNat_add, W]

/-! ### WIN_WRITE -/

@[simp] theorem Window.writeByte_ptr (x : Window) (b : Byte) : (x.writeByte b).ptr = x.ptr + 1 := rfl

@[simp] theorem Window.writeByte_fill (x : Window) (b : Byte) :
    (x.writeByte b).fill.val = min (x.fill.val + 1) W := rfl

@[simp] theorem Window.writeByte_buf (x : Window) (b : Byte) :
    (x.writeByte b).buf = x.buf.write x.ptr.toNat b := rfl

theorem Window.stored_iff (x : Window) : x.stored = true ↔ x.buf.wf = true ∧ ∀ c ∈ x.buf, c.1 < W := by
  simp [Window.stored]

theorem Window.stored_wf {x : Window} (h : x.stored = true) : x.buf.wf = true := ((Window.stored_iff x).1 h).1

theorem Window.stored_writeByte {x : Window} (h : x.stored = true) (b : Byte) : (x.writeByte b).stored = true := by
  obtain ⟨hw, hk⟩ := (Window.stored_iff x).1 h
  refine (Window.stored_iff _).2 ⟨Memory.wf_write hw _ _, fun c hc => ?_⟩
  rcases Memory.mem_write hc with rfl | hc
  · exact index_toNat_lt x.ptr
  · exact hk c hc

/-! ### WIN_WRITES -/

@[simp] theorem Window.writeBytes_nil (x : Window) : x.writeBytes [] = x := rfl

@[simp] theorem Window.writeBytes_cons (x : Window) (b : Byte) (bs : List Byte) :
    x.writeBytes (b :: bs) = (x.writeByte b).writeBytes bs := rfl

theorem Window.writeBytes_append (x : Window) (bs cs : List Byte) :
    x.writeBytes (bs ++ cs) = (x.writeBytes bs).writeBytes cs := by
  induction bs generalizing x with
  | nil => rfl
  | cons b bs ih => simp [ih]

theorem Window.stored_writeBytes {x : Window} (h : x.stored = true) (bs : List Byte) :
    (x.writeBytes bs).stored = true := by
  induction bs generalizing x with
  | nil => exact h
  | cons b bs ih => exact ih (Window.stored_writeByte h b)

theorem Window.writeBytes_ptr (x : Window) (bs : List Byte) :
    (x.writeBytes bs).ptr.toNat = (x.ptr.toNat + bs.length) % W := by
  induction bs generalizing x with
  | nil => simp [Nat.mod_eq_of_lt (index_toNat_lt x.ptr)]
  | cons b bs ih =>
    rw [Window.writeBytes_cons, ih, Window.writeByte_ptr, index_succ_toNat, List.length_cons]
    simp only [W]
    omega

theorem Window.writeBytes_fill (x : Window) (bs : List Byte) :
    (x.writeBytes bs).fill.val = min (x.fill.val + bs.length) W := by
  induction bs generalizing x with
  | nil =>
    have := x.fill.isLt
    simp
    omega
  | cons b bs ih =>
    rw [Window.writeBytes_cons, ih, Window.writeByte_fill, List.length_cons]
    omega

/-- A slot none of the bytes goes to keeps its byte. -/
theorem Window.read_writeBytes_other {x : Window} (h : x.stored = true) (bs : List Byte) (a : Nat)
    (ha : ∀ i, i < bs.length → a ≠ (x.ptr.toNat + i) % W) : (x.writeBytes bs).buf.read a = x.buf.read a := by
  induction bs generalizing x with
  | nil => rfl
  | cons b bs ih =>
    rw [Window.writeBytes_cons, ih (Window.stored_writeByte h b), Window.writeByte_buf,
      Memory.read_write_ne (Window.stored_wf h)]
    · have := ha 0 (by simp)
      rwa [Nat.add_zero, Nat.mod_eq_of_lt (index_toNat_lt x.ptr)] at this
    · intro i hi
      have := ha (i + 1) (by simpa using hi)
      rw [Window.writeByte_ptr, index_succ_toNat]
      simp only [W] at this ⊢
      omega

/-- Of at most `W` bytes, byte `i` stands `i` slots past the old pointer (R23, R104). -/
theorem Window.read_writeBytes_own {x : Window} (h : x.stored = true) (bs : List Byte) (hW : bs.length ≤ W)
    (i : Nat) (hi : i < bs.length) : (x.writeBytes bs).buf.read ((x.ptr.toNat + i) % W) = bs[i] := by
  induction bs generalizing x i with
  | nil => simp at hi
  | cons b bs ih =>
    rw [Window.writeBytes_cons]
    rw [List.length_cons] at hW
    cases i with
    | zero =>
      rw [Window.read_writeBytes_other (Window.stored_writeByte h b), Window.writeByte_buf, Nat.add_zero,
        Nat.mod_eq_of_lt (index_toNat_lt x.ptr), Memory.read_write_same (Window.stored_wf h)]
      · rfl
      · intro k hk
        have := index_toNat_lt x.ptr
        rw [Window.writeByte_ptr, index_succ_toNat]
        simp only [W] at hW this ⊢
        omega
    | succ i =>
      have hi' : i < bs.length := by simpa using hi
      have := ih (Window.stored_writeByte h b) (by omega) i hi'
      rw [Window.writeByte_ptr, index_succ_toNat] at this
      rw [List.getElem_cons_succ, ← this]
      congr 1
      simp only [W]
      omega

/-- WIN_WRITE keeps R23. -/
theorem Window.seeded_writeByte {p0 : Index} {x : Window} (h : x.Inv p0) (b : Byte) : (x.writeByte b).seeded p0 := by
  intro hf
  have hfv := Window.writeByte_fill x b
  have hlt : x.fill.val < W := by omega
  obtain ⟨hp, hz⟩ := h.seeded hlt
  refine ⟨?_, fun k hk hkW => ?_⟩
  · rw [Window.writeByte_ptr, hp, hfv, Nat.min_eq_left (by omega)]
    apply BitVec.eq_of_toNat_eq
    have h1 : (1 : Index).toNat = 1 := rfl
    simp only [BitVec.toNat_add, BitVec.toNat_ofNat, h1]
    omega
  · rw [Window.writeByte_buf, Memory.read_write_ne (Window.stored_wf h.stored)]
    · exact hz k (by omega) hkW
    · have hpn : x.ptr.toNat = (p0.toNat + x.fill.val) % W := by
        rw [hp]
        simp only [BitVec.toNat_add, BitVec.toNat_ofNat, W]
        omega
      have := index_toNat_lt p0
      simp only [W] at *
      omega

theorem Window.inv_writeByte {p0 : Index} {x : Window} (h : x.Inv p0) (b : Byte) : (x.writeByte b).Inv p0 :=
  ⟨Window.stored_writeByte h.stored b, Window.seeded_writeByte h b⟩

theorem Window.inv_writeBytes {p0 : Index} {x : Window} (h : x.Inv p0) (bs : List Byte) :
    (x.writeBytes bs).Inv p0 := by
  induction bs generalizing x with
  | nil => exact h
  | cons b bs ih => exact ih (Window.inv_writeByte h b)

theorem Window.inv_reset (p0 : Index) : (Window.reset p0).Inv p0 :=
  ⟨rfl, fun _ => ⟨by simp [Window.reset], fun _ _ _ => rfl⟩⟩

/-! ### WIN_READ -/

theorem Window.readByte_lt (x : Window) {idx : Nat} (h : idx < W) :
    x.readByte idx = .ok (x.buf.read idx, (idx + 1) % W) := by
  simp [Window.readByte, not_le.2 h]

theorem Window.readByte_ge (x : Window) {idx : Nat} (h : W ≤ idx) : x.readByte idx = .error .outOfRange := by
  simp [Window.readByte, h]

/-! ### The walk of WIN_FIND -/

/-- What a walk that has agreed for `L` bytes ends with: it agrees as far as it says, and no further. -/
theorem Window.walk_spec (x : Window) (p d : Nat) (rest : List Byte) (L : Nat) :
    let r := x.walk p d rest L
    L ≤ r ∧ r ≤ L + rest.length ∧ (r ≤ d ∨ r = L) ∧
      (∀ j, j + L < r → rest[j]? = some (x.buf.read ((p + (j + L)) % W))) ∧
      (r < L + rest.length → r < d → rest[r - L]? ≠ some (x.buf.read ((p + r) % W))) := by
  induction rest generalizing L with
  | nil => simp [Window.walk]
  | cons b rest ih =>
    simp only [Window.walk]
    split
    · rename_i h
      obtain ⟨h1, h2, h3, h4, h5⟩ := ih (L + 1)
      refine ⟨by omega, by simp only [List.length_cons]; omega, by omega, ?_, ?_⟩
      · intro j hj
        cases j with
        | zero => simp [h.2]
        | succ j =>
          rw [List.getElem?_cons_succ, h4 j (by omega)]
          congr 3
          omega
      · intro hr hd
        simp only [List.length_cons] at hr
        have := h5 (by omega) hd
        obtain ⟨k, hk⟩ : ∃ k, x.walk p d rest (L + 1) - L = k + 1 := ⟨x.walk p d rest (L + 1) - (L + 1), by omega⟩
        rw [hk, List.getElem?_cons_succ]
        have hk' : k = x.walk p d rest (L + 1) - (L + 1) := by omega
        rwa [hk']
    · rename_i h
      refine ⟨le_refl _, by omega, .inr rfl, fun j hj => by omega, ?_⟩
      intro _ hd
      simp only [Nat.sub_self, List.getElem?_cons_zero, ne_eq, Option.some.injEq]
      intro hb
      exact h ⟨hd, hb.symm⟩

/-- The length of the walk at distance `d`. -/
def Window.walkLen (x : Window) (la : List Byte) (d : Nat) : Nat := x.walk (x.candidate d) d la 0

/-- A walk agrees, and nothing longer at its distance does. -/
theorem Window.walkLen_spec (x : Window) (la : List Byte) (d : Nat) :
    x.agrees la d (x.walkLen la d) ∧ ∀ L, x.agrees la d L → L ≤ x.walkLen la d := by
  obtain ⟨h1, h2, h3, h4, h5⟩ := x.walk_spec (x.candidate d) d la 0
  simp only [Nat.zero_add, Nat.add_zero, Nat.sub_zero] at h2 h4 h5
  refine ⟨⟨h2, ?_, h4⟩, fun L hL => ?_⟩
  · show x.walk _ _ _ _ ≤ d
    omega
  · by_contra hlt
    obtain ⟨ha, hb, hc⟩ := hL
    unfold Window.walkLen at hlt
    exact h5 (by omega) (by omega) (hc _ (by omega))

theorem Window.walkLen_le (x : Window) (la : List Byte) (d : Nat) : x.walkLen la d ≤ la.length :=
  (x.walkLen_spec la d).1.1

/-! ### The search of WIN_FIND -/

/-- `best` is the best of the distances `1 .. d - 1`: none walks further, and the nearest that walks as far. -/
structure Window.BestBelow (x : Window) (la : List Byte) (d : Nat) (best : Best) : Prop where
  max : ∀ d', 1 ≤ d' → d' < d → x.walkLen la d' ≤ best.len
  zero : best.len = 0 → best = ⟨0, 0, 0⟩
  pos : 0 < best.len →
    1 ≤ best.dist ∧ best.dist < d ∧ best.off = x.candidate best.dist ∧ best.len = x.walkLen la best.dist ∧
      ∀ d', 1 ≤ d' → d' < best.dist → x.walkLen la d' < best.len

theorem Window.BestBelow.start (x : Window) (la : List Byte) : x.BestBelow la 1 ⟨0, 0, 0⟩ :=
  ⟨fun _ h1 h2 => by omega, fun _ => rfl, fun h => by simp at h⟩

theorem Window.BestBelow.step {x : Window} {la : List Byte} {d : Nat} {best : Best} (h : x.BestBelow la d best)
    (hd : 1 ≤ d) :
    x.BestBelow la (d + 1)
      (if best.len < x.walkLen la d then ⟨x.walkLen la d, x.candidate d, d⟩ else best) := by
  split
  · rename_i hlt
    refine ⟨fun d' h1 h2 => ?_, fun h0 => ?_, fun _ => ⟨hd, by simp, rfl, rfl, fun d' h1 h2 => ?_⟩⟩
    · rcases Nat.lt_succ_iff_lt_or_eq.1 h2 with h2 | rfl
      · exact le_trans (h.max d' h1 h2) hlt.le
      · exact le_refl _
    · simp only at h0
      omega
    · exact lt_of_le_of_lt (h.max d' h1 h2) hlt
  · rename_i hge
    refine ⟨fun d' h1 h2 => ?_, h.zero, fun hp => ?_⟩
    · rcases Nat.lt_succ_iff_lt_or_eq.1 h2 with h2 | rfl
      · exact h.max d' h1 h2
      · exact not_lt.1 hge
    · obtain ⟨a, b, c⟩ := h.pos hp
      exact ⟨a, by omega, c⟩

/-- A best of `MAXLEN` needs no further search. -/
theorem Window.BestBelow.extend {x : Window} {la : List Byte} {d e : Nat} {best : Best} (h : x.BestBelow la d best)
    (hde : d ≤ e) (hmax : ∀ d', x.walkLen la d' ≤ best.len) : x.BestBelow la e best :=
  ⟨fun d' _ _ => hmax d', h.zero, fun hp => by
    obtain ⟨a, b, c⟩ := h.pos hp
    exact ⟨a, by omega, c⟩⟩

theorem Window.search_spec (x : Window) {la : List Byte} (hla : la.length ≤ maxLen) (n d : Nat) (best : Best)
    (hd : 1 ≤ d) (h : x.BestBelow la d best) : x.BestBelow la (d + n) (x.search la n d best) := by
  induction n generalizing d best with
  | zero => exact h
  | succ n ih =>
    have hs := h.step hd
    have hstep : x.search la (n + 1) d best =
        (fun best' : Best => if best'.len = maxLen then best' else x.search la n (d + 1) best')
          (if best.len < x.walkLen la d then ⟨x.walkLen la d, x.candidate d, d⟩ else best) := rfl
    rw [hstep]
    generalize (if best.len < x.walkLen la d then (⟨x.walkLen la d, x.candidate d, d⟩ : Best) else best) = best' at hs
    show x.BestBelow la (d + (n + 1)) (if best'.len = maxLen then best' else _)
    split
    · rename_i hmax
      refine hs.extend (by omega) fun d' => ?_
      rw [hmax]
      exact le_trans (x.walkLen_le la d') hla
    · have := ih (d + 1) best' (by omega) hs
      rwa [show d + 1 + n = d + (n + 1) by omega] at this

/-! ### The extension of WIN_FIND -/

/-- What the extension from `j` bytes on ends with: it agrees cyclically as far as it says, and no further. -/
theorem Window.extend_spec (x : Window) (off dist : Nat) (rest : List Byte) (j : Nat) :
    let r := x.extend off dist rest j
    j ≤ r ∧ r ≤ j + rest.length ∧
      (∀ i, i + j < r → rest[i]? = some (x.buf.read ((off + (i + j) % dist) % W))) ∧
      (r < j + rest.length → rest[r - j]? ≠ some (x.buf.read ((off + r % dist) % W))) := by
  induction rest generalizing j with
  | nil => simp [Window.extend]
  | cons b rest ih =>
    simp only [Window.extend]
    split
    · rename_i h
      obtain ⟨h1, h2, h3, h4⟩ := ih (j + 1)
      refine ⟨by omega, by simp only [List.length_cons]; omega, ?_, ?_⟩
      · intro i hi
        cases i with
        | zero => simp [h]
        | succ i =>
          rw [List.getElem?_cons_succ, h3 i (by omega), show i + (j + 1) = i + 1 + j by omega]
      · intro hr
        simp only [List.length_cons] at hr
        have := h4 (by omega)
        obtain ⟨k, hk⟩ : ∃ k, x.extend off dist rest (j + 1) - j = k + 1 :=
          ⟨x.extend off dist rest (j + 1) - (j + 1), by omega⟩
        rw [hk, List.getElem?_cons_succ]
        have hk' : k = x.extend off dist rest (j + 1) - (j + 1) := by omega
        rwa [hk']
    · rename_i h
      refine ⟨le_refl _, by omega, fun i hi => by omega, fun _ => ?_⟩
      simpa using h

end Sys2Proof.Machine
end

