-- ==== Sys2Proof/Laws/Find.lean ====
section
/-! SUPPORT. What WIN_FIND answers (40_window.md R100, R101), in one lemma, and the arithmetic of distances. -/

namespace Sys2Proof.Machine

open Sys2Proof

theorem Window.candidate_lt (x : Window) (d : Nat) : x.candidate d < W := Nat.mod_lt _ (by decide)

/-- A candidate's distance is the distance it was found at. -/
theorem Window.distance_candidate (x : Window) {d : Nat} (h1 : 1 ≤ d) (hW : d ≤ W) :
    x.distance (x.candidate d) = d := by
  have := index_toNat_lt x.ptr
  unfold Window.distance Window.candidate
  split <;> simp only [W] at * <;> omega

/-- An offset is the candidate at its distance. -/
theorem Window.candidate_distance (x : Window) {off : Nat} (h : off < W) : x.candidate (x.distance off) = off := by
  have := index_toNat_lt x.ptr
  unfold Window.distance Window.candidate
  split <;> simp only [W] at * <;> omega

theorem Window.distance_pos (x : Window) (off : Nat) : 1 ≤ x.distance off := by
  simp only [Window.distance]
  split
  · decide
  · omega

theorem Window.distance_le (x : Window) (off : Nat) : x.distance off ≤ W := by
  simp only [Window.distance]
  split
  · exact le_refl _
  · exact (Nat.mod_lt _ (by decide)).le

/-- What WIN_FIND answers with a positive length: `d` is the distance, `L0` the length before the extension. -/
structure Window.FoundAt (x : Window) (la : List Byte) (f : Found) (d L0 : Nat) : Prop where
  dist_pos : 1 ≤ d
  dist_le : d ≤ x.fill.val
  off_eq : f.off = x.candidate d
  pos : 0 < L0
  agrees : x.agrees la d L0
  /-- No distance agrees further, and the nearest that agrees as far is `d`. -/
  best : ∀ d' L, 1 ≤ d' → d' ≤ x.fill.val → x.agrees la d' L → L ≤ L0 ∧ (L = L0 → d ≤ d')
  le_len : L0 ≤ f.len
  len_le : f.len ≤ la.length
  /-- Only a best that touches the write pointer is extended. -/
  unextended : L0 < d → f.len = L0
  /-- The lookahead agrees with the matched region read cyclically. -/
  cyclic : ∀ j, j < f.len → la[j]? = some (x.buf.read ((x.candidate d + j % d) % W))
  /-- The extension goes as far as that holds. -/
  maximal : L0 = d → f.len < la.length → la[f.len]? ≠ some (x.buf.read ((x.candidate d + f.len % d) % W))

/-- R100, R101. -/
theorem Window.find_spec (x : Window) {la : List Byte} (hla : la.length ≤ maxLen) :
    (x.find la = ⟨0, 0⟩ ∧ ∀ d L, 1 ≤ d → d ≤ x.fill.val → x.agrees la d L → L = 0) ∨
      ∃ d L0, x.FoundAt la (x.find la) d L0 := by
  have hb := x.search_spec hla x.fill.val 1 ⟨0, 0, 0⟩ (le_refl _) (Window.BestBelow.start x la)
  have hmax : ∀ d L, 1 ≤ d → d ≤ x.fill.val → x.agrees la d L →
      L ≤ (x.search la x.fill.val 1 ⟨0, 0, 0⟩).len :=
    fun d L h1 h2 h => le_trans ((x.walkLen_spec la d).2 L h) (hb.max d h1 (by omega))
  have hfind : ∀ len, (if 0 < (x.search la x.fill.val 1 ⟨0, 0, 0⟩).len ∧
        (x.search la x.fill.val 1 ⟨0, 0, 0⟩).len = (x.search la x.fill.val 1 ⟨0, 0, 0⟩).dist then
        x.extend (x.search la x.fill.val 1 ⟨0, 0, 0⟩).off (x.search la x.fill.val 1 ⟨0, 0, 0⟩).dist
          (la.drop (x.search la x.fill.val 1 ⟨0, 0, 0⟩).len) (x.search la x.fill.val 1 ⟨0, 0, 0⟩).len
      else (x.search la x.fill.val 1 ⟨0, 0, 0⟩).len) = len →
      x.find la = if len = 0 then ⟨0, 0⟩ else ⟨len, (x.search la x.fill.val 1 ⟨0, 0, 0⟩).off⟩ := by
    rintro _ rfl
    rfl
  generalize x.search la x.fill.val 1 ⟨0, 0, 0⟩ = best at hb hmax hfind
  rcases Nat.eq_zero_or_pos best.len with h0 | hp
  · left
    refine ⟨by rw [hfind 0 (by simp [h0]), if_pos rfl], fun d L h1 h2 h => ?_⟩
    have := hmax d L h1 h2 h
    omega
  · right
    obtain ⟨hd1, hd2, hoff, hlen, hnear⟩ := hb.pos hp
    have hag : x.agrees la best.dist best.len := hlen ▸ (x.walkLen_spec la best.dist).1
    have hbest : ∀ d' L, 1 ≤ d' → d' ≤ x.fill.val → x.agrees la d' L → L ≤ best.len ∧ (L = best.len → best.dist ≤ d') := by
      refine fun d' L h1 h2 h => ⟨hmax d' L h1 h2 h, fun hL => ?_⟩
      by_contra hlt
      have := hnear d' h1 (by omega)
      have := (x.walkLen_spec la d').2 L h
      omega
    have hcyc : ∀ j, j < best.len → la[j]? = some (x.buf.read ((x.candidate best.dist + j % best.dist) % W)) := by
      intro j hj
      rw [hag.2.2 j hj, Nat.mod_eq_of_lt (lt_of_lt_of_le hj hag.2.1)]
    by_cases htouch : best.len = best.dist
    · obtain ⟨e1, e2, e3, e4⟩ := x.extend_spec best.off best.dist (la.drop best.len) best.len
      rw [hfind _ (if_pos ⟨hp, htouch⟩), if_neg (by omega)]
      have hll := hag.1
      rw [List.length_drop] at e2 e4
      refine ⟨best.dist, best.len, hd1, by omega, hoff, hp, hag, hbest, e1, by simp only; omega, by omega, ?_, ?_⟩
      · intro j hj
        simp only at hj
        rcases lt_or_ge j best.len with hjl | hjl
        · exact hcyc j hjl
        · have := e3 (j - best.len) (by omega)
          rw [List.getElem?_drop, show best.len + (j - best.len) = j by omega,
            show j - best.len + best.len = j by omega] at this
          rw [this, hoff]
      · intro _ hlt
        simp only at hlt ⊢
        have := e4 (by omega)
        rw [List.getElem?_drop] at this
        rw [← hoff]
        rwa [show best.len + (x.extend best.off best.dist (la.drop best.len) best.len - best.len) =
          x.extend best.off best.dist (la.drop best.len) best.len by omega] at this
    · rw [hfind _ (if_neg fun h => htouch h.2), if_neg (by omega)]
      exact ⟨best.dist, best.len, hd1, by omega, hoff, hp, hag, hbest, le_refl _, hag.1, fun _ => rfl, hcyc,
        fun h => absurd h htouch⟩

theorem Window.find_len_le (x : Window) {la : List Byte} (hla : la.length ≤ maxLen) : (x.find la).len ≤ la.length := by
  rcases x.find_spec hla with ⟨h, _⟩ | ⟨d, L0, h⟩
  · simp [h]
  · exact h.len_le

theorem Window.find_off_lt (x : Window) {la : List Byte} (hla : la.length ≤ maxLen) : (x.find la).off < W := by
  rcases x.find_spec hla with ⟨h, _⟩ | ⟨d, L0, h⟩
  · simp [h]
  · rw [h.off_eq]
    exact x.candidate_lt d

end Sys2Proof.Machine
end

