-- ==== Sys2Proof/Laws/Replay.lean ====
section
/-! SUPPORT. What a Match replay does (40_window.md R105, 42_decoder.md R142, R146): the bytes it produces, where
they go, and that they are the bytes the Encoder's search matched. -/

namespace Sys2Proof.Machine

open Sys2Proof

/-! ### Where decoded bytes go -/

/-- Decoded bytes, each emitted and written to `WD`: into the buffer while there is room, then into the carry. -/
theorem State.literals_eq (bs : List Byte) (s : State) :
    bs.foldl State.literal s =
      { s with
        wd := s.wd.writeBytes bs
        read := { s.read with out := s.read.out ++ bs.take (s.read.cap - s.read.out.length) }
        dec := { s.dec with carry := s.dec.carry ++ bs.drop (s.read.cap - s.read.out.length) } } := by
  induction bs generalizing s with
  | nil => simp
  | cons b bs ih =>
    rw [List.foldl_cons, ih]
    simp only [State.literal, State.emit]
    split
    · rename_i h
      obtain ⟨k, hk⟩ : ∃ k, s.read.cap - s.read.out.length = k + 1 := ⟨s.read.cap - s.read.out.length - 1, by omega⟩
      have hk' : s.read.cap - (s.read.out.length + 1) = k := by omega
      simp [State.setRead, State.setWd, hk, hk']
    · rename_i h
      have hk : s.read.cap - s.read.out.length = 0 := by omega
      simp [State.setDec, State.setWd, hk]

/-! ### The bytes of a replay -/

/-- The bytes a replay of `n` bytes from `idx` produces, as R105 has it: each read, then written back. -/
def Window.replayed (x : Window) : Nat → Nat → List Byte
  | 0, _ => []
  | n + 1, idx => x.buf.read idx :: (x.writeByte (x.buf.read idx)).replayed n ((idx + 1) % W)

/-- A replay from an index in range never faults, and delivers its bytes. -/
theorem replay_eq (n : Nat) {idx : Nat} (h : idx < W) (s : State) :
    replay n idx s = .goOn ((s.wd.replayed n idx).foldl State.literal s) := by
  induction n generalizing idx s with
  | zero => rfl
  | succ n ih =>
    simp only [replay, Window.readByte_lt _ h, Window.replayed, List.foldl_cons]
    rw [ih (Nat.mod_lt _ (by decide))]
    have : (s.literal (s.wd.buf.read idx)).wd = s.wd.writeByte (s.wd.buf.read idx) := by
      simp only [State.literal, State.emit]
      split <;> rfl
    rw [this]

@[simp] theorem Window.replayed_length (x : Window) (n idx : Nat) : (x.replayed n idx).length = n := by
  induction n generalizing x idx with
  | zero => rfl
  | succ n ih => simp [Window.replayed, ih]

/-- Byte `j` is what stands at its index after the bytes before it were written. -/
theorem Window.replayed_getElem (x : Window) (n idx j : Nat) (hj : j < (x.replayed n idx).length) :
    (x.replayed n idx)[j] = (x.writeBytes ((x.replayed n idx).take j)).buf.read ((idx + j) % W) ∨
      (j = 0 ∧ (x.replayed n idx)[j] = x.buf.read idx) := by
  induction n generalizing x idx j with
  | zero => simp [Window.replayed] at hj
  | succ n ih =>
    cases j with
    | zero => exact .inr ⟨rfl, rfl⟩
    | succ j =>
      left
      simp only [Window.replayed, List.getElem_cons_succ, List.take_succ_cons, Window.writeBytes_cons]
      have hj' : j < ((x.writeByte (x.buf.read idx)).replayed n ((idx + 1) % W)).length := by
        simpa [Window.replayed] using hj
      rcases ih (x.writeByte (x.buf.read idx)) ((idx + 1) % W) j hj' with h | ⟨rfl, h⟩
      · rw [h]
        congr 1
        simp only [W]
        omega
      · rw [h]
        simp

/-- R105: before the replay reaches the write pointer it reads the old bytes, after that its own. -/
theorem Window.replayed_spec {x : Window} (hx : x.stored = true) {d n : Nat} (h1 : 1 ≤ d) (hd : d ≤ W) (hn : n ≤ W)
    (j : Nat) (hj : j < n) :
    (x.replayed n (x.candidate d))[j]'(by simpa using hj) =
      if j < d then x.buf.read ((x.candidate d + j) % W)
      else (x.replayed n (x.candidate d))[j - d]'(by rw [Window.replayed_length]; omega) := by
  have hp := index_toNat_lt x.ptr
  rcases x.replayed_getElem n (x.candidate d) j (by simpa using hj) with h | ⟨rfl, h⟩
  · rw [h]
    split
    · rename_i hjd
      refine Window.read_writeBytes_other hx _ _ fun i hi => ?_
      simp only [List.length_take, Window.replayed_length] at hi
      unfold Window.candidate
      simp only [W] at *
      omega
    · rename_i hjd
      have hlen : ((x.replayed n (x.candidate d)).take j).length = j := by simp; omega
      have := Window.read_writeBytes_own hx ((x.replayed n (x.candidate d)).take j) (by omega) (j - d) (by omega)
      rw [List.getElem_take] at this
      rw [← this]
      congr 1
      unfold Window.candidate
      simp only [W] at *
      omega
  · rw [h, if_pos (by omega), Nat.add_zero, Nat.mod_eq_of_lt (x.candidate_lt d)]

/-- R105: the replay of what WIN_FIND answered is what WIN_FIND matched. -/
theorem Window.replayed_found {x : Window} (hx : x.stored = true) {la : List Byte} (hla : la.length ≤ maxLen)
    {f : Found} {d L0 : Nat} (h : x.FoundAt la f d L0) : x.replayed f.len f.off = la.take f.len := by
  have hdW : d ≤ W := le_trans h.dist_le (Nat.lt_succ_iff.1 x.fill.isLt)
  have hn : f.len ≤ W := le_trans (le_trans h.len_le hla) (by decide)
  have key : ∀ j, j < f.len → (x.replayed f.len f.off)[j]? = la[j]? := by
    intro j
    induction j using Nat.strong_induction_on with
    | _ j ih =>
      intro hj
      have hs := Window.replayed_spec hx h.dist_pos hdW hn j hj
      rw [← h.off_eq] at hs
      rw [List.getElem?_eq_getElem (by simpa using hj), hs, h.cyclic j hj]
      split
      · rename_i hjd
        rw [Nat.mod_eq_of_lt hjd, h.off_eq]
      · rename_i hjd
        have := ih (j - d) (by have := h.dist_pos; omega) (by omega)
        rw [List.getElem?_eq_getElem (by rw [Window.replayed_length]; omega), h.cyclic (j - d) (by omega)] at this
        rw [this, Nat.mod_eq_sub_mod (not_lt.1 hjd)]
  apply List.ext_getElem?
  intro j
  rcases lt_or_ge j f.len with hj | hj
  · rw [key j hj, List.getElem?_take_of_lt hj]
  · rw [List.getElem?_eq_none (by simpa using hj), List.getElem?_eq_none (by simp [hj])]

end Sys2Proof.Machine
end

