-- ==== Sys2Proof/Laws/Decoder.lean ====
section
/-! SUPPORT. The Decoder's operations, each in one lemma: a source read (42_decoder.md R148, R149), the three wire
units (R143, R145, R146), and a turn of DEC_READ's loop (R140). -/

namespace Sys2Proof.Machine

open Sys2Proof

/-! ### The source (R35) -/

/-- The state with the source's next answer taken. -/
def State.afterRead (s : State) : State := s.setSource s.source.after

theorem fetchByte_byte {s : State} {b : Byte} (h : s.source.answer = .byte b) (k : Byte → State → Flow) :
    s.fetchByte k = k b s.afterRead := by
  simp only [State.fetchByte, State.sourceRead, h]
  rfl

theorem fetchByte_eof {s : State} (h : s.source.answer = .eof) (k : Byte → State → Flow) :
    s.fetchByte k = .ended (takeFailure .endOfSource s.afterRead) := by
  simp only [State.fetchByte, State.sourceRead, h]
  rfl

theorem fetchByte_err {s : State} {e : ErrCode} (h : s.source.answer = .err e) (k : Byte → State → Flow) :
    s.fetchByte k = .ended (takeFailure (.source e) s.afterRead) := by
  simp only [State.fetchByte, State.sourceRead, h]
  rfl

theorem Source.answer_cons {r : Source} {a : SourceAnswer} {rest : List SourceAnswer} (h : r.answers = a :: rest) :
    r.answer = a := by
  simp [Source.answer, h]

theorem Source.after_byte {r : Source} {b : Byte} {rest : List SourceAnswer} (h : r.answers = .byte b :: rest) :
    r.after = { r with answers := rest, pos := r.pos + 1 } := by
  simp [Source.after, Source.answer, h]

theorem Source.after_eof {r : Source} {rest : List SourceAnswer} (h : r.answers = .eof :: rest) :
    r.after = { r with answers := rest } := by
  simp [Source.after, Source.answer, h]

theorem Source.after_err {r : Source} {e : ErrCode} {rest : List SourceAnswer} (h : r.answers = .err e :: rest) :
    r.after = { r with answers := rest } := by
  simp [Source.after, Source.answer, h]

/-! ### The flag register (R30, R143, R147) -/

theorem loadedFlags_ne_one (cfg : Config) (f : Byte) : loadedFlags cfg f ≠ 1 := by
  intro h
  have := congrArg (fun v => v.getLsbD 8) h
  simp [loadedFlags] at this

/-! ### The wire units -/

theorem matchOffset_lt (b0 b1 : Byte) : (matchOffset b0 b1).toNat < W := index_toNat_lt _

theorem matchLength_bounds (b1 : Byte) : 3 ≤ (matchLength b1).toNat ∧ (matchLength b1).toNat ≤ 18 := by
  have h : (b1.extractLsb' 0 4).toNat < 16 := (b1.extractLsb' 0 4).isLt
  have : (matchLength b1).toNat = (b1.extractLsb' 0 4).toNat + 3 := by
    have h3 : (3 : BitVec 5).toNat = 3 := rfl
    simp only [matchLength, BitVec.toNat_add, BitVec.toNat_setWidth, h3]
    omega
  omega

/-! ### A turn of the loop (R140), from what it depends on -/

/-- What a turn of DEC_READ's loop comes to: a token whose bytes are delivered, or the end of the command; with
the flag register and the source as it leaves them. -/
inductive Turn where
  | token (bs : List Byte) (freg : BitVec 9) (r : Source)
  | ends (f : Failure) (freg : BitVec 9) (r : Source)

/-- A token, by its flag bit (R144 to R147): nothing but the flag register, `WD` and the source decides it. -/
def tokenOf (freg : BitVec 9) (wd : Window) (r : Source) : Turn :=
  match r.answer with
  | .eof => .ends .endOfSource freg r.after
  | .err e => .ends (.source e) freg r.after
  | .byte b0 =>
    if freg.getLsbD 0 then .token [b0] (freg >>> 1) r.after
    else
      match r.after.answer with
      | .eof => .ends .endOfSource freg r.after.after
      | .err e => .ends (.source e) freg r.after.after
      | .byte b1 =>
        .token (wd.replayed (matchLength b1).toNat (matchOffset b0 b1).toNat) (freg >>> 1) r.after.after

/-- A turn: a flag byte first where one is needed (R143). -/
def turnOf (cfg : Config) (freg : BitVec 9) (wd : Window) (r : Source) : Turn :=
  if freg = 1 then
    match r.answer with
    | .eof => .ends .endOfSource freg r.after
    | .err e => .ends (.source e) freg r.after
    | .byte f => tokenOf (loadedFlags cfg f) wd r.after
  else tokenOf freg wd r

/-- What a turn does to the machine. -/
def Turn.run (s : State) : Turn → Flow
  | .token bs freg r => .goOn (bs.foldl State.literal ((s.setSource r).setDec { s.dec with freg := freg }))
  | .ends f freg r => .ended (takeFailure f ((s.setSource r).setDec { s.dec with freg := freg }))

theorem shiftFlags_literals (bs : List Byte) (s : State) :
    (bs.foldl State.literal s).shiftFlags = bs.foldl State.literal s.shiftFlags := by
  rw [State.literals_eq, State.literals_eq]
  rfl

theorem readToken_eq (s : State) :
    ((if s.dec.freg.getLsbD 0 then litToken s else matchToken s).andThen fun t => .goOn t.shiftFlags) =
      (tokenOf s.dec.freg s.wd s.source).run s := by
  unfold tokenOf
  by_cases hb : s.dec.freg.getLsbD 0 = true
  · rw [if_pos hb]
    unfold litToken
    cases h : s.source.answer with
    | byte b =>
      rw [fetchByte_byte h]
      simp only [hb, if_true, Turn.run]
      exact congrArg Flow.goOn (shiftFlags_literals [b] s.afterRead)
    | eof => rw [fetchByte_eof h]; rfl
    | err e => rw [fetchByte_err h]; rfl
  · rw [if_neg hb]
    unfold matchToken
    cases h : s.source.answer with
    | byte b0 =>
      rw [fetchByte_byte h]
      simp only [hb]
      cases h' : s.source.after.answer with
      | byte b1 =>
        rw [fetchByte_byte (s := s.afterRead) h', replay_eq _ (matchOffset_lt b0 b1)]
        exact congrArg Flow.goOn (shiftFlags_literals _ s.afterRead.afterRead)
      | eof => rw [fetchByte_eof (s := s.afterRead) h']; rfl
      | err e => rw [fetchByte_err (s := s.afterRead) h']; rfl
    | eof => rw [fetchByte_eof h]; rfl
    | err e => rw [fetchByte_err h]; rfl

/-- R140, R143 to R149: a turn is decided by the configuration, the flag register, `WD` and the source. -/
theorem readTurn_eq (s : State) : readTurn s = (turnOf s.cfg s.dec.freg s.wd s.source).run s := by
  unfold readTurn turnOf
  by_cases h1 : s.dec.freg = 1
  · rw [if_pos h1, if_pos h1]
    unfold needFlags
    cases h : s.source.answer with
    | byte f =>
      rw [fetchByte_byte h]
      have := readToken_eq (s.afterRead.loadFlags f)
      simp only [Flow.andThen_goOn]
      rw [this]
      show (tokenOf (loadedFlags s.cfg f) s.wd s.source.after).run _ = _
      generalize tokenOf (loadedFlags s.cfg f) s.wd s.source.after = u
      cases u <;> rfl
    | eof => rw [fetchByte_eof h]; rfl
    | err e => rw [fetchByte_err h]; rfl
  · rw [if_neg h1, if_neg h1]
    exact readToken_eq s

/-- A token delivers 1 to 18 bytes. -/
theorem tokenOf_bytes {freg freg' : BitVec 9} {wd : Window} {r r' : Source} {bs : List Byte}
    (h : tokenOf freg wd r = .token bs freg' r') : 1 ≤ bs.length ∧ bs.length ≤ maxLen ∧ freg' = freg >>> 1 := by
  unfold tokenOf at h
  split at h
  · cases h
  · cases h
  · split at h
    · cases h
      exact ⟨le_refl _, show 1 ≤ 18 by decide, rfl⟩
    · split at h
      · cases h
      · cases h
      · rename_i b1 _
        cases h
        have := matchLength_bounds b1
        rw [Window.replayed_length]
        exact ⟨by omega, this.2, rfl⟩

theorem tokenOf_ends {freg freg' : BitVec 9} {wd : Window} {r r' : Source} {f : Failure}
    (h : tokenOf freg wd r = .ends f freg' r') :
    (f = .endOfSource ∨ ∃ e, f = .source e) ∧ freg' = freg := by
  unfold tokenOf at h
  split at h
  · cases h; exact ⟨.inl rfl, rfl⟩
  · cases h; exact ⟨.inr ⟨_, rfl⟩, rfl⟩
  · split at h
    · cases h
    · split at h
      · cases h; exact ⟨.inl rfl, rfl⟩
      · cases h; exact ⟨.inr ⟨_, rfl⟩, rfl⟩
      · cases h

/-- R30 and R147: a turn that delivers a token delivers 1 to 18 bytes and leaves a shifted flag register, loaded
just before or held. -/
theorem turnOf_token {cfg : Config} {freg freg' : BitVec 9} {wd : Window} {r r' : Source} {bs : List Byte}
    (h : turnOf cfg freg wd r = .token bs freg' r') :
    1 ≤ bs.length ∧ bs.length ≤ maxLen ∧
      ∃ v : BitVec 9, freg' = v >>> 1 ∧ ((freg ≠ 1 ∧ v = freg) ∨ ∃ f, v = loadedFlags cfg f) := by
  unfold turnOf at h
  split at h
  · split at h
    · cases h
    · cases h
    · obtain ⟨h1, h2, h3⟩ := tokenOf_bytes h
      exact ⟨h1, h2, _, h3, .inr ⟨_, rfl⟩⟩
  · rename_i hne
    obtain ⟨h1, h2, h3⟩ := tokenOf_bytes h
    exact ⟨h1, h2, _, h3, .inl ⟨hne, rfl⟩⟩

/-- A turn that ends the command ends it at the source (R148, R149): CORRUPT does not happen (R150). -/
theorem turnOf_ends {cfg : Config} {freg freg' : BitVec 9} {wd : Window} {r r' : Source} {f : Failure}
    (h : turnOf cfg freg wd r = .ends f freg' r') :
    (f = .endOfSource ∨ ∃ e, f = .source e) ∧ (freg' = freg ∨ ∃ b, freg' = loadedFlags cfg b) := by
  unfold turnOf at h
  split at h
  · split at h
    · cases h; exact ⟨.inl rfl, .inl rfl⟩
    · cases h; exact ⟨.inr ⟨_, rfl⟩, .inl rfl⟩
    · obtain ⟨h1, h2⟩ := tokenOf_ends h
      exact ⟨h1, .inr ⟨_, h2⟩⟩
  · obtain ⟨h1, h2⟩ := tokenOf_ends h
    exact ⟨h1, .inl h2⟩

/-- One step of the loop of DEC_READ. -/
theorem readLoop_succ (n : Nat) (s : State) :
    readLoop (n + 1) s =
      if s.read.out.length < s.read.cap then
        ((turnOf s.cfg s.dec.freg s.wd s.source).run s).finish (readLoop n)
      else s.respondRead .ok none := by
  rw [← readTurn_eq]
  rfl

/-! ### The loop of DEC_READ (R140), from what it depends on -/

/-- What turns of the loop come to: the bytes decoded, the flag register and the source as they leave them, and
what ended the command, if something did. -/
structure Pulled where
  bytes : List Byte
  freg : BitVec 9
  source : Source
  stop : Option Failure

/-- Turns until `need` bytes are decoded or the command ends; the first number bounds the turns. Nothing but the
configuration, the flag register, `WD` and the source decides them. -/
def pull (cfg : Config) : Nat → Nat → BitVec 9 → Window → Source → Pulled
  | 0, _, freg, _, r => ⟨[], freg, r, none⟩
  | _ + 1, 0, freg, _, r => ⟨[], freg, r, none⟩
  | n + 1, k + 1, freg, wd, r =>
    match turnOf cfg freg wd r with
    | .ends f freg' r' => ⟨[], freg', r', some f⟩
    | .token bs freg' r' =>
      let p := pull cfg n (k + 1 - bs.length) freg' (wd.writeBytes bs) r'
      { p with bytes := bs ++ p.bytes }

/-- The machine with these bytes decoded. -/
def State.decoded (s : State) (bs : List Byte) (freg : BitVec 9) (r : Source) : State :=
  { s with
    wd := s.wd.writeBytes bs
    read := { s.read with out := s.read.out ++ bs.take (s.read.cap - s.read.out.length) }
    dec := { s.dec with carry := s.dec.carry ++ bs.drop (s.read.cap - s.read.out.length), freg := freg }
    source := r }

/-- The command's response. -/
def State.endRead (s : State) : Option Failure → State
  | none => s.respondRead .ok none
  | some f => takeFailure f s

/-- The loop is the turns it takes, its bytes to the buffer and then the carry, and its response. -/
theorem readLoop_eq (n : Nat) : ∀ s : State, s.read.cap - s.read.out.length ≤ n →
    readLoop n s =
      (s.decoded (pull s.cfg n (s.read.cap - s.read.out.length) s.dec.freg s.wd s.source).bytes
        (pull s.cfg n (s.read.cap - s.read.out.length) s.dec.freg s.wd s.source).freg
        (pull s.cfg n (s.read.cap - s.read.out.length) s.dec.freg s.wd s.source).source).endRead
        (pull s.cfg n (s.read.cap - s.read.out.length) s.dec.freg s.wd s.source).stop := by
  induction n with
  | zero =>
    intro s h
    simp [readLoop, pull, State.decoded, State.endRead]
  | succ n ih =>
    intro s h
    rw [readLoop_succ]
    by_cases hlt : s.read.out.length < s.read.cap
    · rw [if_pos hlt]
      obtain ⟨k, hk⟩ : ∃ k, s.read.cap - s.read.out.length = k + 1 := ⟨s.read.cap - s.read.out.length - 1, by omega⟩
      rw [hk, pull]
      cases ht : turnOf s.cfg s.dec.freg s.wd s.source with
      | ends f freg' r' =>
        simp only [Turn.run, Flow.finish, State.endRead]
        congr 1
        simp [State.decoded, State.setSource, State.setDec]
      | token bs freg' r' =>
        have hb := (turnOf_token ht).1
        simp only [Turn.run, Flow.finish]
        rw [State.literals_eq]
        rw [ih _ (by simp; omega)]
        have e1 : s.read.cap - (s.read.out.length + min (s.read.cap - s.read.out.length) bs.length) = k + 1 - bs.length := by omega
        simp only [State.setDec_read, State.setSource_read, State.setDec_wd, State.setSource_wd, List.length_append, List.length_take, e1, State.setDec_cfg, State.setSource_cfg]
        simp only [State.setDec, State.setSource, State.decoded, hk]
        generalize pull s.cfg n (k + 1 - bs.length) freg' (s.wd.writeBytes bs) r' = p
        simp only [List.length_append, List.length_take, Window.writeBytes_append, List.append_assoc]
        congr 1
        have e2 : s.read.cap - (s.read.out.length + min (k+1) bs.length) = k + 1 - bs.length := by omega
        rw [e2]
        simp [List.take_append, List.drop_append]
    · rw [if_neg hlt]
      have h0 : s.read.cap - s.read.out.length = 0 := by omega
      simp [h0, pull, State.decoded, State.endRead]

/-- Enough fuel is enough. -/
theorem pull_fuel (cfg : Config) (n : Nat) : ∀ (m need : Nat) (freg : BitVec 9) (wd : Window) (r : Source), need ≤ n → need ≤ m →
    pull cfg n need freg wd r = pull cfg m need freg wd r := by
  induction n with
  | zero => intro m need freg wd r h1 _; obtain rfl : need = 0 := by omega
            cases m <;> rfl
  | succ n ih =>
    intro m need freg wd r h1 h2
    cases need with
    | zero => cases m <;> rfl
    | succ k =>
      obtain ⟨m', rfl⟩ : ∃ m', m = m' + 1 := ⟨m - 1, by omega⟩
      rw [pull, pull]
      cases ht : turnOf cfg freg wd r with
      | ends f freg' r' => rfl
      | token bs freg' r' =>
        have hb := (turnOf_token ht).1
        simp only
        rw [ih m' _ _ _ _ (by omega) (by omega)]

/-- R153: turns for `a + b` bytes are turns for `a` and then for what is missing. -/
theorem pull_split (cfg : Config) (n : Nat) : ∀ (a b : Nat) (freg : BitVec 9) (wd : Window) (r : Source), a + b ≤ n →
    pull cfg n (a + b) freg wd r =
      match pull cfg n a freg wd r with
      | ⟨bs, freg', r', some f⟩ => ⟨bs, freg', r', some f⟩
      | ⟨bs, freg', r', none⟩ =>
        let p := pull cfg n (a + b - bs.length) freg' (wd.writeBytes bs) r'
        { p with bytes := bs ++ p.bytes } := by
  induction n with
  | zero =>
    intro a b freg wd r h
    obtain ⟨rfl, rfl⟩ : a = 0 ∧ b = 0 := by omega
    rfl
  | succ n ih =>
    intro a b freg wd r h
    cases a with
    | zero => simp [pull]
    | succ a =>
      rw [show a + 1 + b = (a + b) + 1 by omega, pull, pull]
      cases ht : turnOf cfg freg wd r with
      | ends f freg' r' => rfl
      | token bs freg' r' =>
        have hb := (turnOf_token ht).1
        simp only
        by_cases hab : bs.length ≤ a + 1
        · rw [show a + b + 1 - bs.length = (a + 1 - bs.length) + b by omega, ih _ b _ _ _ (by omega)]
          rcases hp : pull cfg n (a + 1 - bs.length) freg' (wd.writeBytes bs) r' with ⟨bs', f', r'', st⟩
          cases st with
          | some f => rfl
          | none =>
            simp only [List.length_append, Window.writeBytes_append]
            rw [pull_fuel cfg (n+1) n _ _ _ _ (by omega) (by omega), show a + b + 1 - (bs.length + bs'.length) = a + 1 - bs.length + b - bs'.length by omega]
            simp
        · have h0 : a + 1 - bs.length = 0 := by omega
          have h0' : pull cfg n 0 freg' (wd.writeBytes bs) r' = ⟨[], freg', r', none⟩ := by cases n <;> rfl
          rw [h0, h0']
          simp only [List.append_nil]
          rw [pull_fuel cfg (n+1) n _ _ _ _ (by omega) (by omega)]

/-- R148 to R150, R152: turns deliver what is needed and at most 17 bytes more, or end at the source with less. -/
theorem pull_spec (cfg : Config) (n : Nat) : ∀ (need : Nat) (freg : BitVec 9) (wd : Window) (r : Source), need ≤ n →
    ((pull cfg n need freg wd r).stop = none → need ≤ (pull cfg n need freg wd r).bytes.length ∧ (pull cfg n need freg wd r).bytes.length ≤ need + 17) ∧
    (∀ f, (pull cfg n need freg wd r).stop = some f → (pull cfg n need freg wd r).bytes.length < need ∧ (f = .endOfSource ∨ ∃ e, f = .source e)) ∧
     (need = 0 → (pull cfg n need freg wd r).bytes = []) := by
  induction n with
  | zero => intro need freg wd r h; simp [pull]; omega
  | succ n ih =>
    intro need freg wd r h
    cases need with
    | zero => simp [pull]
    | succ k =>
      rw [pull]
      cases ht : turnOf cfg freg wd r with
      | ends f freg' r' =>
        simp only [List.length_nil]
        have := (turnOf_ends ht).1
        refine ⟨by simp, ?_, by omega⟩
        intro f' hf'
        cases hf'
        exact ⟨by omega, this⟩
      | token bs freg' r' =>
        obtain ⟨h1, h18, _⟩ := turnOf_token ht
        have := ih (k + 1 - bs.length) freg' (wd.writeBytes bs) r' (by omega)
        simp only [List.length_append, maxLen] at *
        refine ⟨fun hs => ?_, fun f hs => ?_, by omega⟩
        · have a := this.1 hs
          by_cases h0 : k + 1 - bs.length = 0
          · have := this.2.2 h0
            rw [this] at *; simp at *; omega
          · omega
        · have a := this.2.1 f hs
          exact ⟨by omega, a.2⟩

/-- The turns a DEC_READ of this capacity takes. -/
def State.pulled (s : State) (cap : Nat) : Pulled :=
  pull s.cfg cap (cap - s.dec.carry.length) s.dec.freg s.wd s.source

/-- The machine with them taken: carried and decoded bytes in one row, cut at the capacity (R141, R142). -/
def State.afterPull (s : State) (cap : Nat) (p : Pulled) : State :=
  { s with
    wd := s.wd.writeBytes p.bytes
    read := { cap := cap, out := (s.dec.carry ++ p.bytes).take cap }
    dec := { s.dec with carry := (s.dec.carry ++ p.bytes).drop cap, freg := p.freg }
    source := p.source }

/-- R140: DEC_READ on an open Decoder. -/
theorem execDecRead_open (cap : BitVec 16) (s : State) (h : s.dec.st = .ok) :
    execDecRead cap s = .next ((s.afterPull cap.toNat (s.pulled cap.toNat)).endRead (s.pulled cap.toNat).stop) := by
  simp only [execDecRead, h, ne_eq, not_true_eq_false, if_false]
  rw [readLoop_eq _ _ (by simp [State.drain, State.setRead, State.setDec])]
  congr 1
  have e : cap.toNat - min cap.toNat s.dec.carry.length = cap.toNat - s.dec.carry.length := by omega
  simp only [State.drain, State.setRead, State.setDec, List.length_nil, Nat.sub_zero, List.nil_append, List.length_take, State.decoded, State.pulled, State.afterPull, e,
    List.take_append, List.drop_append]

/-- A bound of the room left or more cuts nothing off (log 18). -/
theorem readLoop_fuel (n m s) (h : s.read.cap - s.read.out.length ≤ n) (h' : s.read.cap - s.read.out.length ≤ m) : readLoop n s = readLoop m s := by
  rw [readLoop_eq n s h, readLoop_eq m s h', pull_fuel s.cfg n m _ _ _ _ h h']

end Sys2Proof.Machine
end

