-- ==== Sys2Proof/Laws/Encoder.lean ====
section
/-! SUPPORT. The Encoder's operations, each in one lemma: a sink write, a flush (41_encoder.md R125), a token
decision (R121 to R124), a flush inside a command (R128). -/

namespace Sys2Proof.Machine

open Sys2Proof

/-! ### The sink (R36) -/

theorem Sink.after_blocks_ok {k : Sink} {bs : List Byte} (h : k.answer bs = .ok) :
    (k.after bs).blocks = k.blocks ++ [bs] := by
  simp [Sink.after, h]

theorem Sink.after_blocks_err {k : Sink} {bs : List Byte} {e : ErrCode} (h : k.answer bs = .err e) :
    (k.after bs).blocks = k.blocks := by
  simp [Sink.after, h]

theorem Sink.accepts_answer {k : Sink} {n : Nat} (h : k.accepts (n + 1)) (bs : List Byte) : k.answer bs = .ok := by
  obtain ⟨h1, h2⟩ := h
  cases hk : k.answers with
  | nil => simp [hk] at h1
  | cons a rest =>
    simp only [Sink.answer, hk]
    exact h2 a (by simp [hk])

theorem Sink.accepts_after {k : Sink} {n : Nat} (h : k.accepts (n + 1)) (bs : List Byte) :
    (k.after bs).accepts n := by
  obtain ⟨h1, h2⟩ := h
  cases hk : k.answers with
  | nil => simp [hk] at h1
  | cons a rest =>
    refine ⟨by simpa [Sink.after, hk] using h1, fun a' ha => h2 a' ?_⟩
    simp only [Sink.after, hk, List.tail_cons] at ha
    simp [hk, ha]

theorem Sink.accepts_mono {k : Sink} {m n : Nat} (h : k.accepts n) (hmn : m ≤ n) : k.accepts m :=
  ⟨le_trans hmn h.1, fun a ha => h.2 a (List.take_subset_take_left _ hmn ha)⟩

/-! ### FLUSH (R125, R128) -/

/-- The block a flush writes: the flag byte and the payload. -/
def State.block (s : State) : List Byte := flagByte s.cfg s.enc :: s.enc.stage

/-- The Encoder with an empty block. -/
def Encoder.emptied (e : Encoder) : Encoder := { e with flags := 0x00, ntok := 0, stage := [] }

theorem flushOrFail_ok {s : State} (h : s.sink.answer s.block = .ok) :
    flushOrFail s = .goOn ((s.setSink (s.sink.after s.block)).setEnc s.enc.emptied) := by
  unfold State.block at h
  simp only [flushOrFail, State.flush, State.sinkWrite, h]
  rfl

theorem flushOrFail_err {s : State} {e : ErrCode} (h : s.sink.answer s.block = .err e) :
    flushOrFail s = .ended (takeFailure (.sink e) (s.setSink (s.sink.after s.block))) := by
  unfold State.block at h
  simp only [flushOrFail, State.flush, State.sinkWrite, h]
  rfl

/-! ### ENC_STEP (R121) -/

/-- The Encoder's registers after EMIT_LIT (R122). -/
def Encoder.withLit (e : Encoder) (b : Byte) : Encoder :=
  { e with flags := literalFlag e.flags e.ntok, stage := e.stage ++ [b], ntok := e.ntok + 1 }

/-- The Encoder's registers after EMIT_MATCH (R123). -/
def Encoder.withMatch (e : Encoder) (off : Index) (len : BitVec 5) : Encoder :=
  { e with stage := e.stage ++ [matchLow off, matchHigh off len], ntok := e.ntok + 1 }

/-- A token decision is a Literal of one byte, or a Match of 3 to 18 bytes that WIN_FIND answers; the bytes it
consumes are written to `WE` (R121 to R124). -/
theorem encStep_cases (b : Byte) (rest : List Byte) (s : State) :
    (encStep b rest s = (1, (s.setEnc (s.enc.withLit b)).setWe (s.we.writeBytes [b])) ∧
        (s.we.find ((b :: rest).take maxLen)).len < minLen) ∨
      ∃ f : Found, s.we.find ((b :: rest).take maxLen) = f ∧ minLen ≤ f.len ∧ f.len ≤ maxLen ∧
        f.len ≤ rest.length + 1 ∧
        encStep b rest s =
          (f.len, (s.setEnc (s.enc.withMatch (BitVec.ofNat 12 f.off) (BitVec.ofNat 5 f.len))).setWe
            (s.we.writeBytes ((b :: rest).take f.len))) := by
  rcases lt_or_ge (s.we.find ((b :: rest).take maxLen)).len minLen with h | h
  · left
    refine ⟨?_, h⟩
    simp only [encStep, h, if_true]
    rfl
  · right
    have hla : ((b :: rest).take maxLen).length ≤ maxLen := List.length_take_le _ _
    have hle := s.we.find_len_le hla
    refine ⟨_, rfl, h, le_trans hle hla, le_trans hle (by simp), ?_⟩
    simp only [encStep, not_lt.2 h, if_false]
    rfl

theorem encStep_consumes (b : Byte) (rest : List Byte) (s : State) :
    1 ≤ (encStep b rest s).1 ∧ (encStep b rest s).1 ≤ rest.length + 1 := by
  rcases encStep_cases b rest s with ⟨h, _⟩ | ⟨f, _, h1, _, h3, h⟩
  · rw [h]
    exact ⟨le_refl _, by omega⟩
  · rw [h]
    exact ⟨le_trans (by decide) h1, h3⟩

/-- What a token decision writes: the Encoder's registers, and to `WE` the bytes it consumed (R124). -/
theorem encStep_state (b : Byte) (rest : List Byte) (s : State) :
    ∃ e : Encoder, (encStep b rest s).2 =
        (s.setEnc e).setWe (s.we.writeBytes ((b :: rest).take (encStep b rest s).1)) ∧
      e.st = s.enc.st ∧ e.ntok = s.enc.ntok + 1 := by
  rcases encStep_cases b rest s with ⟨h, _⟩ | ⟨f, _, _, _, _, h⟩
  · exact ⟨s.enc.withLit b, by rw [h]; rfl, rfl, rfl⟩
  · exact ⟨s.enc.withMatch (BitVec.ofNat 12 f.off) (BitVec.ofNat 5 f.len), by rw [h], rfl, rfl⟩

/-- One turn of ENC_WRITE's loop. -/
theorem encLoop_succ (n : Nat) (b : Byte) (rest : List Byte) (s : State) :
    encLoop (n + 1) (b :: rest) s =
      (if (encStep b rest s).2.enc.ntok = 8 then flushOrFail (encStep b rest s).2
        else .goOn (encStep b rest s).2).andThen (encLoop n ((b :: rest).drop (encStep b rest s).1)) := rfl

/-! ### Token counts and flags (R26, R28) -/

theorem ntok_succ : ∀ n : BitVec 4, n.toNat < blockTokens → (n + 1).toNat = n.toNat + 1 := by decide

theorem literalFlag_bit {n : BitVec 4} (hn : n.toNat < blockTokens) (f : BitVec 8) {i : Nat} (hi : i < blockTokens) :
    (literalFlag f n).getLsbD i = if i = n.toNat then true else f.getLsbD i := by
  simp only [blockTokens] at hn hi
  by_cases h : i = n.toNat
  · subst h; simp [literalFlag, hn]
  · rw [if_neg h]
    simp only [literalFlag, BitVec.getLsbD_or, BitVec.getLsbD_shiftLeft, hi, decide_true, Bool.true_and]
    rcases Nat.lt_or_gt_of_ne h with h' | h'
    · simp [h']
    · have : i - n.toNat ≠ 0 := by omega
      simp [this]

theorem matchCount_succ (f : BitVec 8) (n : Nat) :
    matchCount f (n + 1) = matchCount f n + if f.getLsbD n then 0 else 1 := by
  simp [matchCount, List.range_succ, List.countP_append]
  cases f.getLsbD n <;> simp

theorem matchCount_congr {f g : BitVec 8} {n : Nat} (h : ∀ i, i < n → f.getLsbD i = g.getLsbD i) :
    matchCount f n = matchCount g n := by
  unfold matchCount
  apply List.countP_congr
  intro i hi
  rw [h i (List.mem_range.1 hi)]

theorem matchCount_le (f : BitVec 8) (n : Nat) : matchCount f n ≤ n := by
  have := List.countP_le_length (p := fun i => !f.getLsbD i) (l := List.range n)
  simpa [matchCount] using this

/-! ### The loop of ENC_WRITE (R120) -/

/-- The block state of `Encoder.Inv`, in a block that may be full. -/
structure Encoder.InvFull (e : Encoder) : Prop where
  ntok_le : e.ntok.toNat ≤ blockTokens
  high_clear : ∀ i, e.ntok.toNat ≤ i → i < blockTokens → e.flags.getLsbD i = false
  stage_length : e.stage.length = e.ntok.toNat + matchCount e.flags e.ntok.toNat

theorem Encoder.InvFull.withLit {e : Encoder} (h : e.InvFull) (hn : e.ntok.toNat < blockTokens) (b : Byte) :
    (e.withLit b).InvFull := by
  have hs := ntok_succ _ hn
  refine ⟨?_, ?_, ?_⟩
  · show (e.ntok + 1).toNat ≤ _; omega
  · intro i h1 h2
    change (e.ntok + 1).toNat ≤ i at h1
    show (literalFlag e.flags e.ntok).getLsbD i = false
    rw [literalFlag_bit hn _ h2, if_neg (by omega)]
    exact h.high_clear i (by omega) h2
  · show (e.stage ++ [b]).length = (e.ntok + 1).toNat + matchCount (literalFlag e.flags e.ntok) (e.ntok + 1).toNat
    have hc : matchCount (literalFlag e.flags e.ntok) e.ntok.toNat = matchCount e.flags e.ntok.toNat :=
      matchCount_congr fun i hi => by rw [literalFlag_bit hn _ (by omega), if_neg (by omega)]
    rw [hs, matchCount_succ, literalFlag_bit hn _ hn, if_pos rfl, List.length_append, h.stage_length, hc]
    simp; omega

theorem Encoder.InvFull.withMatch {e : Encoder} (h : e.InvFull) (hn : e.ntok.toNat < blockTokens) (off : Index) (len : BitVec 5) :
    (e.withMatch off len).InvFull := by
  have hs := ntok_succ _ hn
  refine ⟨?_, ?_, ?_⟩
  · show (e.ntok + 1).toNat ≤ _; omega
  · intro i h1 h2
    change (e.ntok + 1).toNat ≤ i at h1
    exact h.high_clear i (by omega) h2
  · show (e.stage ++ [_, _]).length = (e.ntok + 1).toNat + matchCount e.flags (e.ntok + 1).toNat
    rw [hs, matchCount_succ, h.high_clear _ (le_refl _) hn, List.length_append, h.stage_length]
    simp; omega

theorem Encoder.Inv.full {e : Encoder} (h : e.Inv) : e.InvFull := ⟨h.ntok_le, h.high_clear, h.stage_length⟩

theorem Encoder.inv_emptied (e : Encoder) : e.emptied.Inv :=
  ⟨Nat.zero_le _, fun _ => (by decide : (0 : BitVec 4).toNat < 8), fun i _ _ => by simp [Encoder.emptied],
    by simp [Encoder.emptied, matchCount]⟩

theorem Encoder.InvFull.block_length {e : Encoder} (h : e.InvFull) (h0 : e.ntok ≠ 0) :
    1 ≤ e.stage.length ∧ e.stage.length ≤ 16 := by
  have h1 : e.ntok.toNat ≠ 0 := fun h => h0 (BitVec.eq_of_toNat_eq h)
  have h2 := h.ntok_le
  have h3 := matchCount_le e.flags e.ntok.toNat
  simp only [blockTokens] at h2
  rw [h.stage_length]; omega

/-- What a run of ENC_WRITE's loop over `data` comes to: all of the data taken, or a sink failure after a prefix
of it. Either way only `WE`, the Encoder's registers and the sink differ; the sink's blocks only grow, by blocks of
2 to 17 bytes (R83); and a sink that accepts a write for each byte does not fail. -/
inductive EncRun (s : State) (data : List Byte) : Flow → Prop
  | done (e : Encoder) (k : Sink) (blocks : List (List Byte)) : e.st = s.enc.st → k.blocks = s.sink.blocks ++ blocks →
      (s.enc.Inv → s.enc.st = .ok → e.Inv ∧ ∀ bl ∈ blocks, 2 ≤ bl.length ∧ bl.length ≤ 17) →
      (∀ n, s.sink.accepts (data.length + n) → k.accepts n) →
      EncRun s data (.goOn { s with we := s.we.writeBytes data, enc := e, sink := k })
  | failed (n : Nat) (e : Encoder) (k : Sink) (blocks : List (List Byte)) (err : ErrCode) : n ≤ data.length → e.st = s.enc.st →
      k.blocks = s.sink.blocks ++ blocks →
      (s.enc.Inv → s.enc.st = .ok → e.InvFull ∧ ∀ bl ∈ blocks, 2 ≤ bl.length ∧ bl.length ≤ 17) →
      (¬ s.sink.accepts data.length) →
      EncRun s data (.ended (takeFailure (.sink err) { s with we := s.we.writeBytes (data.take n), enc := e, sink := k }))

theorem ntok_lt_of {n : BitVec 4} (h : n.toNat ≤ 8) (h' : n ≠ 8) : n.toNat < 8 := by
  have : n.toNat ≠ 8 := fun e => h' (BitVec.eq_of_toNat_eq e)
  omega

/-- One turn: a token decision, and a flush when the block is full. -/
theorem encTurn (b : Byte) (rest : List Byte) (s : State) :
    EncRun s ((b :: rest).take (encStep b rest s).1)
      (if (encStep b rest s).2.enc.ntok = 8 then flushOrFail (encStep b rest s).2
        else .goOn (encStep b rest s).2) := by
  obtain ⟨e, he, hst, hnt, hinv⟩ : ∃ e : Encoder, (encStep b rest s).2 =
        (s.setEnc e).setWe (s.we.writeBytes ((b :: rest).take (encStep b rest s).1)) ∧
      e.st = s.enc.st ∧ e.ntok = s.enc.ntok + 1 ∧ (s.enc.Inv → s.enc.st = .ok → e.InvFull) := by
    rcases encStep_cases b rest s with ⟨h, _⟩ | ⟨f, _, _, _, _, h⟩
    · exact ⟨s.enc.withLit b, by rw [h]; rfl, rfl, rfl, fun h ho => h.full.withLit (h.open_le ho) b⟩
    · exact ⟨s.enc.withMatch (BitVec.ofNat 12 f.off) (BitVec.ofNat 5 f.len), by rw [h], rfl, rfl, fun h ho => h.full.withMatch (h.open_le ho) _ _⟩
  have hc := encStep_consumes b rest s
  rw [he]
  have hlen : 1 ≤ ((b :: rest).take (encStep b rest s).1).length := by simp; omega
  generalize (b :: rest).take (encStep b rest s).1 = d at *
  by_cases h8 : e.ntok = 8
  · have h8' : ((s.setEnc e).setWe (s.we.writeBytes d)).enc.ntok = 8 := h8
    rw [if_pos h8']
    have hbl : s.enc.Inv → s.enc.st = .ok → ∀ bl ∈ [((s.setEnc e).setWe (s.we.writeBytes d)).block], 2 ≤ bl.length ∧ bl.length ≤ 17 := by
      intro h ho bl hb
      rw [List.mem_singleton] at hb
      have := (hinv h ho).block_length (by rw [h8]; decide)
      rw [hb]
      show 2 ≤ (_ :: e.stage).length ∧ (_ :: e.stage).length ≤ 17
      simp; omega
    cases ha : ((s.setEnc e).setWe (s.we.writeBytes d)).sink.answer ((s.setEnc e).setWe (s.we.writeBytes d)).block with
    | ok =>
      rw [flushOrFail_ok ha]
      exact EncRun.done e.emptied _ [_] hst (Sink.after_blocks_ok ha) (fun h ho => ⟨Encoder.inv_emptied e, hbl h ho⟩)
        fun n hn => Sink.accepts_after (Sink.accepts_mono hn (by omega)) _
    | err err =>
      rw [flushOrFail_err ha]
      have := EncRun.failed (s := s) (data := d) d.length e (s.sink.after ((s.setEnc e).setWe (s.we.writeBytes d)).block) [] err (le_refl _) hst
        (by rw [List.append_nil]; exact Sink.after_blocks_err ha) (fun h ho => ⟨hinv h ho, by simp⟩)
        (fun hacc => by
          have := Sink.accepts_answer (n := 0) (Sink.accepts_mono hacc hlen) ((s.setEnc e).setWe (s.we.writeBytes d)).block
          rw [show s.sink.answer _ = _ from ha] at this
          cases this)
      rw [List.take_length] at this
      exact this
  · have h8' : ¬ ((s.setEnc e).setWe (s.we.writeBytes d)).enc.ntok = 8 := h8
    rw [if_neg h8']
    refine EncRun.done e s.sink [] hst (by simp) (fun h ho => ⟨⟨(hinv h ho).ntok_le, fun _ => ?_, (hinv h ho).high_clear, (hinv h ho).stage_length⟩, by simp⟩)
      fun n hn => Sink.accepts_mono hn (by omega)
    exact ntok_lt_of (hinv h ho).ntok_le h8


/-- Turns compose. -/
theorem EncRun.trans {s t : State} {d1 d2 : List Byte} {F : Flow} (h1 : EncRun s d1 (.goOn t)) (h2 : EncRun t d2 F) :
    EncRun s (d1 ++ d2) F := by
  cases h1 with
  | done e k blocks hst hbl hinv hacc =>
    cases h2 with
    | done e' k' blocks' hst' hbl' hinv' hacc' =>
      have := EncRun.done (s := s) (data := d1 ++ d2) e' k' (blocks ++ blocks') (hst'.trans hst) (by rw [hbl']; simp [hbl])
        (fun h ho => by
          have a := hinv h ho
          have b := hinv' a.1 (hst.trans ho)
          refine ⟨b.1, fun bl hb => ?_⟩
          rcases List.mem_append.1 hb with hb | hb
          · exact a.2 bl hb
          · exact b.2 bl hb)
        (fun n hn => hacc' n (hacc _ (by rw [List.length_append, Nat.add_assoc] at hn; exact hn)))
      rw [Window.writeBytes_append] at this
      exact this
    | failed n e' k' blocks' err hn hst' hbl' hinv' hacc' =>
      have := EncRun.failed (s := s) (data := d1 ++ d2) (d1.length + n) e' k' (blocks ++ blocks') err (by simp; exact hn) (hst'.trans hst) (by rw [hbl']; simp [hbl])
        (fun h ho => by
          have a := hinv h ho
          have b := hinv' a.1 (hst.trans ho)
          refine ⟨b.1, fun bl hb => ?_⟩
          rcases List.mem_append.1 hb with hb | hb
          · exact a.2 bl hb
          · exact b.2 bl hb)
        (fun hacc'' => hacc' (hacc _ (by rw [List.length_append] at hacc''; exact hacc'')))
      rw [List.take_length_add_append, Window.writeBytes_append] at this
      exact this

theorem EncRun.mono {s : State} {d1 d2 : List Byte} {F : State} (h1 : EncRun s d1 (.ended F)) : EncRun s (d1 ++ d2) (.ended F) := by
  cases h1 with
  | failed n e k blocks err hn hst hbl hinv hacc =>
    have := EncRun.failed (s := s) (data := d1 ++ d2) n e k blocks err (by simp; omega) hst hbl hinv
      (fun h => hacc (Sink.accepts_mono h (by simp)))
    rw [List.take_append_of_le_length hn] at this
    exact this

/-- R120, R128: the loop over its data. -/
theorem encLoop_run : ∀ (n : Nat) (data : List Byte) (s : State), data.length ≤ n → EncRun s data (encLoop n data s) := by
  intro n
  induction n with
  | zero =>
    intro data s h
    have : data = [] := List.length_eq_zero_iff.1 (Nat.le_zero.1 h)
    subst this
    exact EncRun.done s.enc s.sink [] rfl (by simp) (fun h _ => ⟨h, by simp⟩) (fun n hn => by simpa using hn)
  | succ n ih =>
    intro data s h
    cases data with
    | nil => exact EncRun.done s.enc s.sink [] rfl (by simp) (fun h _ => ⟨h, by simp⟩) (fun n hn => by simpa using hn)
    | cons b rest =>
      rw [encLoop_succ]
      have ht := encTurn b rest s
      have hc := encStep_consumes b rest s
      generalize (if (encStep b rest s).2.enc.ntok = 8 then flushOrFail (encStep b rest s).2
        else Flow.goOn (encStep b rest s).2) = F at *
      conv => arg 2; rw [← List.take_append_drop (encStep b rest s).1 (b :: rest)]
      cases F with
      | goOn t =>
        exact ht.trans (ih _ t (by simp at h ⊢; omega))
      | ended t => exact ht.mono

/-- A bound of the data's length or more cuts nothing off (log 18). -/
theorem encLoop_fuel (n : Nat) : ∀ m data s, data.length ≤ n → data.length ≤ m → encLoop n data s = encLoop m data s := by
  induction n with
  | zero => intro m data s h _
            have : data = [] := List.length_eq_zero_iff.1 (Nat.le_zero.1 h)
            subst this; cases m <;> rfl
  | succ n ih =>
    intro m data s h h'
    cases data with
    | nil => cases m <;> rfl
    | cons b rest =>
      cases m with
      | zero => simp at h'
      | succ m =>
      rw [encLoop_succ, encLoop_succ]
      have hc := encStep_consumes b rest s
      congr 1
      funext t
      simp at h h'
      exact ih m _ t (by simp; omega) (by simp; omega)

end Sys2Proof.Machine
end

