-- ==== Sys2Proof/Laws/PerInstr.lean ====
section
/-! SUPPORT. What is said of every instruction, one lemma a constructor. Family TableRow: the encoding of a
well-formed instruction lies in its own row of spec/opcode_table.json. -/

namespace Sys2Proof.Laws

open Sys2Proof

/-- A row of the opcode table: how its encoding is recognised. -/
inductive Row where
  /-- A command word: the bits of `mask` read `pattern` (30_encoding.md R78). -/
  | command (mask pattern : BitVec 32)
  /-- A command word that lies in none of the four command rows (R80). -/
  | noCommand
  /-- A unit of the wire: the kind the flag register selects, and its length in bytes (R71 to R73, R75). -/
  | wire (k : WireKind) (bytes : Nat)
  /-- An operation code of a Window port (R81). -/
  | port (op : BitVec 2)
  deriving DecidableEq, Repr

/-- The four command rows: mask and match as the table has them. -/
def commandRows : List (BitVec 32 × BitVec 32) :=
  [(0x0000FFFF, 0x00000001), (0xFFFFFFFF, 0x00000002), (0x0000FFFF, 0x00000003), (0xFFFFFFFF, 0x00000004)]

/-- The row of each instruction. -/
def rowOf : Instr → Row
  | .encWrite _ _ => .command 0x0000FFFF 0x00000001
  | .encClose => .command 0xFFFFFFFF 0x00000002
  | .decRead _ => .command 0x0000FFFF 0x00000003
  | .decClose => .command 0xFFFFFFFF 0x00000004
  | .illegalCmd _ _ _ => .noCommand
  | .flags _ => .wire .flagByte 1
  | .lit _ => .wire .literal 1
  | .matchTok _ _ => .wire .matching 2
  | .winFind _ _ => .port 0b00
  | .winRead _ _ => .port 0b01
  | .winWrite _ _ => .port 0b10
  | .winWrites _ _ => .port 0b11

/-- An encoding lies in a row. -/
def Row.holds : Row → Fetched → Prop
  | .command mask pattern, .cmd w _ => w &&& mask = pattern
  | .noCommand, .cmd w _ => ∀ r ∈ commandRows, w &&& r.1 ≠ r.2
  | .wire k n, .wire k' bytes => k' = k ∧ bytes.length = n
  | .port op, .winop _ r => r.op = op
  | _, _ => False

def TableRow.Statement (i : Instr) : Prop := i.wf = true → (rowOf i).holds (encode i)

theorem cmdWord_low (n : BitVec 16) (op : BitVec 4) : cmdWord n 0 op &&& 0x0000FFFF = op.setWidth 32 := by
  apply BitVec.eq_of_getLsbD_eq
  intro i hi
  have hz : (0 : BitVec 12).getLsbD (i - 4) = false := by simp
  have hm : (0x0000FFFF : BitVec 32).getLsbD i = decide (i < 16) := by revert i; decide
  simp only [cmdWord, BitVec.getLsbD_and, BitVec.getLsbD_append, BitVec.getLsbD_setWidth, hm, hz, hi, decide_true,
    Bool.true_and]
  by_cases h4 : i < 4
  · simp [h4, show i < 16 by omega]
  · have hop : op.getLsbD i = false := BitVec.getLsbD_of_ge _ _ (by omega)
    by_cases h16 : i < 16
    · simp [h4, h16, hop, show i - 4 < 12 by omega]
    · simp [h16, hop]

theorem cmdWord_fields (n : BitVec 16) (rsv : BitVec 12) (op : BitVec 4) :
    cmdN (cmdWord n rsv op) = n ∧ cmdRsv (cmdWord n rsv op) = rsv ∧ cmdOp (cmdWord n rsv op) = op := by
  refine ⟨?_, ?_, ?_⟩ <;>
  · apply BitVec.eq_of_getLsbD_eq
    intro i hi
    simp only [cmdN, cmdRsv, cmdOp, cmdWord, BitVec.getLsbD_extractLsb', BitVec.getLsbD_append, hi, decide_true,
      Bool.true_and]
    repeat' split
    all_goals first | omega | (congr 1; omega)

theorem TableRow.encWrite (n : BitVec 16) (data : List Byte) : TableRow.Statement (.encWrite n data) :=
  fun _ => cmdWord_low n 1

theorem TableRow.encClose : TableRow.Statement .encClose :=
  fun _ => show cmdWord 0 0 2 &&& 0xFFFFFFFF = 0x00000002 by decide

theorem TableRow.decRead (cap : BitVec 16) : TableRow.Statement (.decRead cap) := fun _ => cmdWord_low cap 3

theorem TableRow.decClose : TableRow.Statement .decClose :=
  fun _ => show cmdWord 0 0 4 &&& 0xFFFFFFFF = 0x00000004 by decide

theorem TableRow.illegalCmd (n : BitVec 16) (rsv : BitVec 12) (op : BitVec 4) :
    TableRow.Statement (.illegalCmd n rsv op) := by
  intro h r hr heq
  have hf := cmdWord_fields n rsv op
  have low : ∀ w : BitVec 32, cmdOp (w &&& 0x0000FFFF) = cmdOp w ∧ cmdRsv (w &&& 0x0000FFFF) = cmdRsv w := by
    intro w
    constructor <;>
    · apply BitVec.eq_of_getLsbD_eq
      intro i hi
      have hb : ∀ j, j < 16 → (0x0000FFFF : BitVec 32).getLsbD j = true := by decide
      simp only [cmdOp, cmdRsv, BitVec.getLsbD_extractLsb', BitVec.getLsbD_and]
      rw [hb _ (by omega), Bool.and_true]
  have whole : ∀ w : BitVec 32, w &&& 0xFFFFFFFF = w := fun w => BitVec.and_allOnes
  simp only [commandRows, List.mem_cons, List.not_mem_nil, or_false] at hr
  simp only [Instr.wf, isIllegal] at h
  rcases hr with rfl | rfl | rfl | rfl
  · have h1 := (low (cmdWord n rsv op)).1
    have h2 := (low (cmdWord n rsv op)).2
    rw [heq] at h1 h2
    rw [hf.2.2] at h1
    rw [hf.2.1] at h2
    rw [← h1, ← h2, show cmdRsv (0x0000FFFF, 0x00000001).2 = 0 from rfl, show cmdOp (0x0000FFFF, 0x00000001).2 = 1 from rfl] at h
    simp at h
  · rw [whole] at heq
    simp only [heq] at hf
    rw [← hf.1, ← hf.2.1, ← hf.2.2] at h
    exact absurd h (by decide)
  · have h1 := (low (cmdWord n rsv op)).1
    have h2 := (low (cmdWord n rsv op)).2
    rw [heq] at h1 h2
    rw [hf.2.2] at h1
    rw [hf.2.1] at h2
    rw [← h1, ← h2, show cmdRsv (0x0000FFFF, 0x00000003).2 = 0 from rfl, show cmdOp (0x0000FFFF, 0x00000003).2 = 3 from rfl] at h
    simp at h
  · rw [whole] at heq
    simp only [heq] at hf
    rw [← hf.1, ← hf.2.1, ← hf.2.2] at h
    exact absurd h (by decide)

theorem TableRow.flags (t : Byte) : TableRow.Statement (.flags t) := fun _ => ⟨rfl, rfl⟩

theorem TableRow.lit (d : Byte) : TableRow.Statement (.lit d) := fun _ => ⟨rfl, rfl⟩

theorem TableRow.matchTok (off : Index) (len : BitVec 5) : TableRow.Statement (.matchTok off len) := fun _ => ⟨rfl, rfl⟩

theorem TableRow.winFind (x : WinId) (la : List Byte) : TableRow.Statement (.winFind x la) := fun _ => rfl

theorem TableRow.winRead (x : WinId) (idx : Nat) : TableRow.Statement (.winRead x idx) := fun _ => rfl

theorem TableRow.winWrite (x : WinId) (b : Byte) : TableRow.Statement (.winWrite x b) := fun _ => rfl

theorem TableRow.winWrites (x : WinId) (bs : List Byte) : TableRow.Statement (.winWrites x bs) := fun _ => rfl

end Sys2Proof.Laws
end

