-- ==== Sys2Proof/Laws/Step.lean ====
section
/-! SUPPORT. What a step can do, each command in one lemma (30_encoding.md R76, 60_exceptions.md R172, R174), and the
flag register's sentinel (10_state.md R30). -/

namespace Sys2Proof.Machine

open Sys2Proof

/-! ### The flag register -/

theorem freg_loaded (cfg : Config) (f : Byte) : ∃ g, g < 2^8 ∧ (loadedFlags cfg f).toNat = 2 ^ 8 + g := by
  refine ⟨(wireFlags cfg.flagReversed f).toNat, (wireFlags cfg.flagReversed f).isLt, ?_⟩
  have : ∀ b : Byte, ((0x100 : BitVec 9) ||| b.setWidth 9).toNat = 256 + b.toNat := by decide
  exact this _

/-- R30: a sentinel over unconsumed bits. -/
def Sent (v : BitVec 9) : Prop := ∃ k f, k ≤ 8 ∧ f < 2 ^ k ∧ v.toNat = 2 ^ k + f

theorem sent_loaded (cfg : Config) (f : Byte) : Sent (loadedFlags cfg f) := by
  obtain ⟨g, h, h'⟩ := freg_loaded cfg f
  exact ⟨8, g, le_refl _, h, h'⟩

theorem sent_shift {v : BitVec 9} (h : Sent v) (h1 : v ≠ 1) : Sent (v >>> 1) := by
  obtain ⟨k, f, hk, hf, hv⟩ := h
  cases k with
  | zero => exact absurd (BitVec.eq_of_toNat_eq (by rw [hv]; simp at hf; subst hf; rfl)) h1
  | succ k =>
    refine ⟨k, f / 2, by omega, by omega, ?_⟩
    rw [BitVec.toNat_ushiftRight, Nat.shiftRight_eq_div_pow, hv]
    omega

theorem turnOf_sent {cfg freg wd r bs freg' r'} (h : turnOf cfg freg wd r = .token bs freg' r') (hs : Sent freg) : Sent freg' := by
  obtain ⟨_, _, v, rfl, ⟨h1, rfl⟩ | ⟨f, rfl⟩⟩ := turnOf_token h
  · exact sent_shift hs h1
  · exact sent_shift (sent_loaded _ _) (loadedFlags_ne_one _ _)

theorem pull_sent (cfg : Config) (n : Nat) : ∀ (need : Nat) (freg : BitVec 9) (wd : Window) (r : Source), Sent freg → Sent (pull cfg n need freg wd r).freg := by
  induction n with
  | zero => intro need freg wd r h; exact h
  | succ n ih =>
    intro need freg wd r h
    cases need with
    | zero => exact h
    | succ k =>
      rw [pull]
      cases ht : turnOf cfg freg wd r with
      | ends f freg' r' =>
        rcases (turnOf_ends ht).2 with rfl | ⟨b, rfl⟩
        · exact h
        · exact sent_loaded _ _
      | token bs freg' r' => exact ih _ _ _ _ (turnOf_sent ht h)

/-! ### What a command can do -/

/-- ENC_WRITE, when it answers next. -/
theorem encWrite_cases {n data} {s t : State} (h : execEncWrite n data s = .next t) :
   data.length = n.toNat ∧ ((s.enc.st ≠ .ok ∧ t = s.answered s.enc.sticky) ∨
   (s.enc.st = .ok ∧ ∃ e k r w, t = ({ s with we := w, enc := e, sink := k } : State).answered r ∧ (s.we.Inv s.cfg.p0 → w.Inv s.cfg.p0) ∧ (s.enc.Inv → e.Inv))) := by
  simp only [execEncWrite] at h
  split at h
  · cases h
  rename_i hl
  refine ⟨by simpa using hl, ?_⟩
  split at h
  · rename_i ho; cases h; exact .inl ⟨ho, rfl⟩
  · rename_i ho
    have ho : s.enc.st = .ok := by simpa using ho
    refine .inr ⟨ho, ?_⟩
    have hr := encLoop_run data.length data s (le_refl _)
    generalize encLoop data.length data s = F at hr h
    cases hr with
    | done e k blocks hst hbl hinv hacc => cases h; exact ⟨e, k, _, _, rfl, fun h => Window.inv_writeBytes h _, fun h => (hinv h ho).1⟩
    | failed m e k blocks err hn hst hbl hinv hacc =>
      cases h
      refine ⟨{e with st := .sinkErr, info := err}, k, _, _, rfl, fun h => Window.inv_writeBytes h _, fun h => ?_⟩
      have := (hinv h ho).1
      exact ⟨this.ntok_le, fun h => (by cases h), this.high_clear, this.stage_length⟩

/-- ENC_CLOSE, when it answers next. -/
theorem encClose_cases {s t : State} (h : execEncClose s = .next t) :
   ((s.enc.st ≠ .ok ∧ t = s.answered s.enc.sticky) ∨
   (s.enc.st = .ok ∧ ∃ e k r, t = ({ s with enc := e, sink := k } : State).answered r ∧ (s.enc.Inv → e.Inv))) := by
  simp only [execEncClose] at h
  split at h
  · rename_i ho; cases h; exact .inl ⟨ho, rfl⟩
  · rename_i ho
    have ho : s.enc.st = .ok := by simpa using ho
    refine .inr ⟨ho, ?_⟩
    split at h
    · cases ha : s.sink.answer s.block with
      | ok =>
        rw [flushOrFail_ok ha] at h
        cases h
        exact ⟨{s.enc.emptied with st := .closed}, _, _, rfl, fun _ => ⟨Nat.zero_le _, fun h => (by cases h), (Encoder.inv_emptied s.enc).high_clear, (Encoder.inv_emptied s.enc).stage_length⟩⟩
      | err e =>
        rw [flushOrFail_err ha] at h
        cases h
        exact ⟨{s.enc with st := .sinkErr, info := e}, _, _, rfl, fun h => ⟨h.ntok_le, fun h => (by cases h), h.high_clear, h.stage_length⟩⟩
    · cases h
      exact ⟨{s.enc with st := .closed}, s.sink, _, rfl, fun h => ⟨h.ntok_le, fun h => (by cases h), h.high_clear, h.stage_length⟩⟩

/-- DEC_READ, when it answers next. -/
theorem decRead_cases {cap} {s t : State} (h : execDecRead cap s = .next t) :
   (s.dec.st ≠ .ok ∧ t = s.answered s.dec.sticky) ∨
   (s.dec.st = .ok ∧ ∃ d r bs rsp, t = ({ s with wd := s.wd.writeBytes bs, dec := d, source := r, read := .idle } : State).answered rsp ∧
     (s.dec.Inv → d.Inv)) := by
  by_cases ho : s.dec.st = .ok
  · refine .inr ⟨ho, ?_⟩
    rw [execDecRead_open cap s ho] at h
    have hp := pull_spec s.cfg cap.toNat (cap.toNat - s.dec.carry.length) s.dec.freg s.wd s.source (by omega)
    have hse := pull_sent s.cfg cap.toNat (cap.toNat - s.dec.carry.length) s.dec.freg s.wd s.source
    change ((s.pulled cap.toNat).stop = none → _ ≤ (s.pulled cap.toNat).bytes.length ∧ (s.pulled cap.toNat).bytes.length ≤ _) ∧ (∀ f, (s.pulled cap.toNat).stop = some f → (s.pulled cap.toNat).bytes.length < _ ∧ _) ∧ (_ → (s.pulled cap.toNat).bytes = []) at hp
    change _ → Sent (s.pulled cap.toNat).freg at hse
    generalize s.pulled cap.toNat = p at *
    obtain ⟨hp1, hp2, hp3⟩ := hp
    cases h
    cases hst : p.stop with
    | none =>
      refine ⟨_, _, p.bytes, _, rfl, fun hi => ⟨hse hi.sentinel, ?_, fun h => absurd ho h⟩⟩
      show ((s.dec.carry ++ p.bytes).drop cap.toNat).length ≤ _
      have := hp1 hst
      have hc := hi.carry_le
      simp [maxLen] at hc ⊢
      by_cases h0 : cap.toNat - s.dec.carry.length = 0
      · rw [hp3 h0]; simp; omega
      · omega
    | some f =>
      obtain ⟨hb, hf⟩ := hp2 f hst
      have hd : ((s.dec.carry ++ p.bytes).drop cap.toNat) = [] := List.drop_of_length_le (by simp; omega)
      rcases hf with rfl | ⟨e, rfl⟩
      · exact ⟨_, _, p.bytes, _, rfl, fun hi => ⟨hse hi.sentinel, (congrArg List.length hd).trans_le (Nat.zero_le _), fun _ => hd⟩⟩
      · exact ⟨_, _, p.bytes, _, rfl, fun hi => ⟨hse hi.sentinel, (congrArg List.length hd).trans_le (Nat.zero_le _), fun _ => hd⟩⟩
  · simp only [execDecRead, ho, ne_eq, not_false_eq_true, if_true] at h
    cases h
    exact .inl ⟨ho, rfl⟩

/-- DEC_CLOSE, when it answers next. -/
theorem decClose_cases {s t : State} (h : execDecClose s = .next t) :
   (s.dec.st.terminal = true ∧ t = s.answered s.dec.sticky) ∨
   (s.dec.st.terminal = false ∧ t = ({ s with dec := { s.dec with st := .closed, carry := [] } } : State).answered (Response.plain .ok)) := by
  simp only [execDecClose] at h
  split at h
  · rename_i ho; cases h; exact .inl ⟨ho, rfl⟩
  · rename_i ho; cases h; exact .inr ⟨by simpa using ho, rfl⟩

/-! ### What a step can do -/

/-- The step, by what it takes: a Window request, a command, a reset, nothing. -/
inductive StepKind (s : State) : Host.Outcome State Fault Refusal → Prop
  | win (x : WinId) (r : WinRequest) (s' : State) : s'.cfg = s.cfg → s'.we = s.we → s'.wd = s.wd → s'.enc = s.enc → s'.dec = s.dec → s'.sink = s.sink → s'.source = s.source → s'.read = s.read → (s.wePort.req ≠ none ∨ s.wdPort.req ≠ none) → StepKind s (exec (decodeWinop x r) s')
  | cmd (w : BitVec 32) (data : List Byte) (rest) : s.port.pending = .command w data :: rest → StepKind s (exec (decodeCmd w data) (s.setPort { s.port with pending := rest }))
  | er (answers) (u : State) : s.fetch = (.encReset answers, u) → s.sameDecoder u → s.sameEncoder u → u.cfg = s.cfg →  StepKind s (.next (u.encReset answers))
  | dr (answers) (u : State) : s.fetch = (.decReset answers, u) → s.sameDecoder u → s.sameEncoder u →u.cfg = s.cfg → StepKind s (.next (u.decReset answers))
  | idle : StepKind s (.next s)

theorem step_kind (s : State) : StepKind s (step s) := by
  have hf : s.fetch = s.fetch := rfl
  conv at hf => rhs; unfold State.fetch
  unfold step
  split at hf
  · rename_i r h; rw [hf]; exact .win .we r _ rfl rfl rfl rfl rfl rfl rfl rfl (.inl (by simp [h]))
  · split at hf
    · rename_i r h; rw [hf]; exact .win .wd r _ rfl rfl rfl rfl rfl rfl rfl rfl (.inr (by simp [h]))
    · split at hf
      · rename_i h; rw [hf]; exact .cmd _ _ _ h
      · rename_i h; rw [hf]; exact .er _ _ hf ⟨rfl,rfl,rfl,rfl,rfl⟩ ⟨rfl,rfl,rfl,rfl⟩ rfl
      · rename_i h; rw [hf]; exact .dr _ _ hf ⟨rfl,rfl,rfl,rfl,rfl⟩ ⟨rfl,rfl,rfl,rfl⟩ rfl
      · rw [hf]; exact .idle

/-- What a Window operation changes. -/
inductive WinKind (s t : State) : Prop
  | same (p q) : t = { s with wePort := p, wdPort := q } → WinKind s t
  | we (p q bs) : t = { s with wePort := p, wdPort := q, we := s.we.writeBytes bs } → WinKind s t
  | wd (p q bs) : t = { s with wePort := p, wdPort := q, wd := s.wd.writeBytes bs } → WinKind s t

theorem winop_kind {x r} {s t : State} (h : exec (decodeWinop x r) s = .next t) : WinKind s t := by
  unfold decodeWinop at h
  split at h
  · simp only [exec, execWinFind] at h
    split at h
    · cases h
    · cases h; cases x <;> exact .same _ _ rfl
  split at h
  · simp only [exec, execWinRead] at h
    split at h
    · cases h; cases x <;> exact .same _ _ rfl
    · cases h
  split at h
  · simp only [exec, execWinWrite] at h
    cases h; cases x
    · exact .we _ _ [r.byte] rfl
    · exact .wd _ _ [r.byte] rfl
  · simp only [exec, execWinWrites] at h
    cases h; cases x
    · exact .we _ _ r.bytes rfl
    · exact .wd _ _ r.bytes rfl

/-- Which meaning a command word runs. -/
inductive CmdKind (s : State) : Host.Outcome State Fault Refusal → Prop
 | ew n data : CmdKind s (execEncWrite n data s)
 | ec  : CmdKind s (execEncClose s)
 | dr n  : CmdKind s (execDecRead n s)
 | dc : CmdKind s (execDecClose s)
 | ill r : CmdKind s (.next (s.answered r))
theorem cmd_kind (w data s) : CmdKind s (exec (decodeCmd w data) s) := by
  unfold decodeCmd
  split; exact .ew _ _
  split; exact .ec
  split; exact .dr _
  split; exact .dc
  exact .ill _

end Sys2Proof.Machine
end

