-- ==== Sys2Proof/Tests/Slice0.lean ====
section
/-! SUPPORT. Tests: words written out from the spec's encodings, ill-formed terms, single steps with the expected
results of 95_test_vectors.md, and a witness for the hypotheses of each statement. -/

namespace Sys2Proof.Tests

open Sys2Proof Sys2Proof.Machine

/-! ### Small states -/

/-- The next state, where there is one. -/
def after : Host.Outcome State Fault Refusal → Option State
  | .next s => some s
  | .fault _ => none
  | .refused _ => none

/-- The machine after reset, with these sink answers, source answers and host inputs. -/
def start (sink : List SinkAnswer) (source : List SourceAnswer) (inputs : List HostInput) : State :=
  { State.reset with
    sink := { answers := sink, draws := 0, blocks := [] }
    source := { answers := source, draws := 0, pos := 0 }
    port := { pending := inputs, responses := [] } }

/-- A Window whose first slots hold these bytes, its pointer after them. -/
def seeded (bs : List Byte) : Window := (Window.reset 0).writeBytes bs

/-- The same with the machine around it, on both sides. -/
def windows (bs : List Byte) : State := { State.reset with we := seeded bs, wd := seeded bs }

/-- A Window with these cells, pointer and fill. -/
def placed (cells : List (Nat × Byte)) (ptr : Index) (fill : Fin (W + 1)) : State :=
  let x : Window := { buf := cells.foldl (fun m c => m.write c.1 c.2) [], ptr := ptr, fill := fill }
  { State.reset with we := x, wd := x }

def source (bs : List Byte) : List SourceAnswer := bs.map SourceAnswer.byte ++ [.eof]

/-! ### Decoding: words from the tables -/

/-- T8 with N = 2: bits 31..16 = 2, 15..4 = 0, 3..0 = 0x1. -/
theorem test_decode_enc_write :
    decodeCmd 0b0000000000000010_000000000000_0001 [0x61, 0x62] = .encWrite 2 [0x61, 0x62] := by decide

/-- T9. -/
theorem test_decode_enc_close : decodeCmd 0b0000000000000000_000000000000_0010 [] = .encClose := by decide

/-- T10: capacity 8. -/
theorem test_decode_dec_read : decodeCmd 0b0000000000001000_000000000000_0011 [] = .decRead 8 := by decide

/-- T11. -/
theorem test_decode_dec_close : decodeCmd 0b0000000000000000_000000000000_0100 [] = .decClose := by decide

/-- T12: OP 0x0, 0x5, 0xF, RSV = 1, a close with N = 1. -/
theorem test_decode_illegal :
    decodeCmd 0x00000000 [] = .illegalCmd 0 0 0 ∧ decodeCmd 0x00000005 [] = .illegalCmd 0 0 5 ∧
      decodeCmd 0x0000000F [] = .illegalCmd 0 0 0xF ∧ decodeCmd 0x00000012 [] = .illegalCmd 0 1 2 ∧
      decodeCmd 0x00010002 [] = .illegalCmd 1 0 2 ∧ decodeCmd 0x00010004 [] = .illegalCmd 1 0 4 := by decide

/-- T4: flags of L L L M L in a short block. -/
theorem test_decode_flags : (decodeWire .flagByte [0b11110111]).toOption = some (.flags 0xF7, []) := by decide

/-- T5, with a byte after it. -/
theorem test_decode_lit : (decodeWire .literal [0x00, 0x61]).toOption = some (.lit 0x00, [0x61]) := by decide

/-- R74's example (0xFFE, 4): offset bits 7..0, then offset bits 11..8 and length - 3. -/
theorem test_decode_match :
    (decodeWire .matching [0b11111110, 0b1111_0001]).toOption = some (.matchTok 0xFFE 4, []) := by decide

/-- R148: a Match of one byte is no unit. -/
theorem test_decode_truncated_match : (decodeWire .matching [0xFE]).toOption = none := by decide

/-- R81: code 00. -/
theorem test_decode_win_find : decodeWinop .we ⟨0b00, [0x61], 0, 0⟩ = .winFind .we [0x61] := by decide

/-- R81: code 01. -/
theorem test_decode_win_read : decodeWinop .wd ⟨0b01, [], 4095, 0⟩ = .winRead .wd 4095 := by decide

/-- R81: code 10. -/
theorem test_decode_win_write : decodeWinop .wd ⟨0b10, [], 0, 0x61⟩ = .winWrite .wd 0x61 := by decide

/-- R81: code 11. -/
theorem test_decode_win_writes : decodeWinop .we ⟨0b11, [0x78, 0x79], 0, 0⟩ = .winWrites .we [0x78, 0x79] := by decide

/-- E6: the table of encoded Matches. -/
theorem test_encode_match :
    encode (.matchTok 0x000 3) = .wire .matching [0x00, 0x00] ∧
      encode (.matchTok 0x000 18) = .wire .matching [0x00, 0x0F] ∧
      encode (.matchTok 0xABC 18) = .wire .matching [0xBC, 0xAF] ∧
      encode (.matchTok 0x100 3) = .wire .matching [0x00, 0x10] ∧
      encode (.matchTok 0x052 9) = .wire .matching [0x52, 0x06] := by decide

/-- Table words: a command, a Match in wire order (first byte in bits 7..0), a flag byte, an operation code. -/
theorem test_table_words :
    decodeTableWord 32 0x00080003 = some (.decRead 8) ∧ decodeTableWord 16 0xAFBC = some (.matchTok 0xABC 18) ∧
      decodeTableWord 8 0xF7 = some (.flags 0xF7) ∧ decodeTableWord 8 0b10 = some (.winWrite .wd 0) := by decide

/-! ### Ill-formed terms -/

/-- R76: `|data|` is `N`. -/
theorem test_wf_enc_write : (Instr.encWrite 2 [0x61]).wf = false := by decide

/-- R80: a command's own fields are not illegal. -/
theorem test_wf_illegal :
    (Instr.illegalCmd 8 0 3).wf = false ∧ (Instr.illegalCmd 0 0 2).wf = false ∧ (Instr.illegalCmd 1 0 2).wf = true := by
  decide

/-- R74: lengths 3 to 18. -/
theorem test_wf_match :
    (Instr.matchTok 0 2).wf = false ∧ (Instr.matchTok 0 19).wf = false ∧ (Instr.matchTok 0 3).wf = true ∧
      (Instr.matchTok 0 18).wf = true := by decide

/-- R81: a lookahead of at most 18 bytes. -/
theorem test_wf_win_find :
    (Instr.winFind .we (List.replicate 19 0)).wf = false ∧ (Instr.winFind .we (List.replicate 18 0)).wf = true := by
  decide

/-- R81: a 12-bit index. -/
theorem test_wf_win_read : (Instr.winRead .wd 4096).wf = false ∧ (Instr.winRead .wd 4095).wf = true := by decide

/-- R81: at most 18 bytes. -/
theorem test_wf_win_writes : (Instr.winWrites .we (List.replicate 19 0)).wf = false := by decide

/-! ### Window operations -/

/-- W3: extension with period 3. -/
theorem test_win_find_extends :
    (seeded [0x61, 0x62, 0x63]).find [0x61, 0x62, 0x63, 0x61, 0x62, 0x63, 0x61, 0x62] = ⟨8, 0⟩ := by decide

/-- W9: the candidate crosses 4095 to 0. The fill is 4 here, so that the search stays short. -/
theorem test_win_find_wraps :
    (after (exec (.winFind .we [0x70, 0x71, 0x72, 0x73])
      (placed [(4094, 0x70), (4095, 0x71), (0, 0x72), (1, 0x73)] 2 4))).map (fun s => s.wePort.res) =
      some (some (.found 4 0xFFE)) := by decide

/-- W10: the index wraps. -/
theorem test_win_read_wraps :
    (after (exec (.winRead .wd 4095) (placed [(4095, 0x71)] 0 0))).map (fun s => s.wdPort.res) =
      some (some (.read 0x71 0)) := by decide

/-- W11. -/
theorem test_win_read_faults : exec (.winRead .wd 4096) State.reset = .fault .outOfRange := rfl

/-- W13: the pointer wraps and the fill saturates. -/
theorem test_win_write_wraps :
    (after (exec (.winWrite .wd 0x61) (placed [] 4095 4096))).map (fun s => s.wd) =
      some { buf := [(4095, 0x61)], ptr := 0, fill := 4096 } := by decide

/-- W14. -/
theorem test_win_writes_wraps :
    (after (exec (.winWrites .we [0x78, 0x79, 0x7A]) (placed [] 4094 10))).map (fun s => s.we) =
      some { buf := [(0, 0x7A), (4094, 0x78), (4095, 0x79)], ptr := 1, fill := 13 } := by decide

/-! ### Wire units -/

/-- R143's example. -/
theorem test_flags_loads : (after (exec (.flags 0x7F) State.reset)).map (fun s => s.dec.freg) = some 0x17F := by decide

/-- R145's example, inside a read of capacity 1. -/
theorem test_lit_emits :
    (after (exec (.lit 0x68) { State.reset with read := { cap := 1, out := [] } })).map
      (fun s => (s.read.out, s.dec.carry, s.wd.buf, s.wd.ptr)) = some ([0x68], [], [(0, 0x68)], 1) := by decide

/-- W16 with R142's carry: a capacity of 1 takes the first byte. -/
theorem test_match_replays_a_run :
    (after (exec (.matchTok 0 3) { windows [0x61] with read := { cap := 1, out := [] } })).map
      (fun s => (s.read.out, s.dec.carry, s.wd)) = some ([0x61], [0x61, 0x61], seeded [0x61, 0x61, 0x61, 0x61]) := by
  decide

/-! ### Encoder commands -/

/-- EN9: the flag byte of a Literal and a Match in the reversed order, here in one close; EN5 and R126. -/
theorem test_enc_close_flushes_reversed :
    (after (exec .encClose
      { start [.ok] [] [] with
        cfg := { flagReversed := true, p0 := 0 }
        enc := { st := .ok, info := ⟨0⟩, flags := 0x01, ntok := 2, stage := [0x61, 0x00, 0x00] } })).map
      (fun s => (s.sink.blocks, s.enc.st, s.port.responses)) =
      some ([[0xBF, 0x61, 0x00, 0x00]], .closed, [{ status := .ok, count := 0, out := [], info := none }]) := by decide

/-- EN2 and E8: the close of an empty block writes nothing; the close of a closed unit is CLOSED. -/
theorem test_enc_close_empty :
    (after (exec .encClose State.reset)).bind (fun s => (after (exec .encClose s)).map
      (fun t => (t.sink.blocks, t.port.responses.map Response.word))) =
      some ([], [0x00000000, 0x00000002]) := by decide

/-- EN6: three Literals, a Match of 9 by extension, a Literal; nothing on the sink yet. -/
theorem test_enc_write_finds_the_run :
    (after (exec (.encWrite 13 [0x61, 0x62, 0x63, 0x61, 0x62, 0x63, 0x61, 0x62, 0x63, 0x61, 0x62, 0x63, 0x58])
      State.reset)).map (fun s => (s.enc.flags, s.enc.ntok, s.enc.stage, s.we.ptr, s.port.responses.map Response.word)) =
      some (0x17, 5, [0x61, 0x62, 0x63, 0x00, 0x06, 0x58], 13, [0x000D0000]) := by decide

/-- EN11: the second block fails; `q` is not processed. -/
theorem test_enc_write_fails_at_the_sink :
    (after (exec (.encWrite 17 ((List.range 17).map fun i => BitVec.ofNat 8 (0x61 + i)))
      (start [.ok, .err ⟨1⟩] [] []))).map (fun s => (s.sink.blocks, s.enc.st, s.enc.info, s.we.ptr, s.port.responses)) =
      some ([[0xFF, 0x61, 0x62, 0x63, 0x64, 0x65, 0x66, 0x67, 0x68]], .sinkErr, ⟨1⟩, 16,
        [{ status := .sinkErr, count := 0, out := [], info := some ⟨1⟩ }]) := by decide

/-! ### Decoder commands -/

/-- DE11: a whole stream in the reversed order. -/
theorem test_dec_read_reversed :
    (after (exec (.decRead 10)
      { start [] (source [0xBF, 0x61, 0x00, 0x00]) [] with cfg := { flagReversed := true, p0 := 0 } })).map
      (fun s => (s.dec.st, s.port.responses)) =
      some (.endOfStream, [{ status := .endOfStream, count := 4, out := [0x61, 0x61, 0x61, 0x61], info := none }]) := by
  decide

/-- DE5: a Literal, then the source fails. -/
theorem test_dec_read_source_error :
    (after (exec (.decRead 8) (start [] [.byte 0xFF, .byte 0x61, .err ⟨9⟩] []))).map
      (fun s => (s.dec.st, s.dec.freg, s.wd.ptr, s.port.responses)) =
      some (.sourceErr, 0x0FF, 1, [{ status := .sourceErr, count := 1, out := [0x61], info := some ⟨9⟩ }]) := by decide

/-- DE12, with a byte left in the carry. -/
theorem test_dec_close_drops_the_carry :
    (after (exec .decClose { State.reset with dec := { State.reset.dec with carry := [0x61] } })).map
      (fun s => (s.dec.st, s.dec.carry, s.port.responses.map Response.word)) = some (.closed, [], [0x00000000]) := by
  decide

/-- DE13: the close of a Decoder at END succeeds. -/
theorem test_dec_close_at_end :
    (after (exec .decClose { State.reset with dec := { State.reset.dec with st := .endOfStream } })).map
      (fun s => (s.dec.st, s.port.responses.map Response.word)) = some (.closed, [0x00000000]) := by decide

/-- T12: the response alone. -/
theorem test_illegal_is_answered :
    (after (exec (.illegalCmd 1 0 2) State.reset)) =
      some { State.reset with port := { pending := [], responses := [{ status := .illegalCmd, count := 0, out := [], info := none }] } } := by
  decide

/-! ### The step -/

/-- P5 and its reset (R191's example): the host's next input is a reset, then a write. -/
theorem test_step_takes_a_reset :
    (after (step { start [] [] [.encReset [.ok]] with
      enc := { st := .sinkErr, info := ⟨1⟩, flags := 0xFF, ntok := 8, stage := [0x69] }, we := seeded [0x61] })).map
      (fun s => (s.enc.st, s.enc.ntok, s.enc.stage, s.we, s.sink.answers)) =
      some (.ok, 0, [], Window.reset 0, [.ok]) := by decide

/-- A command placed by `withFetchWord` runs: DEC_READ 0. -/
theorem test_fetch_word_command :
    (after (step (State.reset.withFetchWord 32 0x00000003))).map (fun s => s.port.responses.map Response.word) =
      some [0x00000000] := by decide

/-- A Match placed by `withFetchWord` runs inside a DEC_READ: T6 on the fresh Window. -/
theorem test_fetch_word_match :
    (after (step (State.reset.withFetchWord 16 0x90D0))).map (fun s => (s.dec.freg, s.wd.ptr, s.dec.carry)) =
      some (0x080, 3, [0x00, 0x00]) := by decide

/-- A Window operation placed by `withFetchWord` runs on its port. -/
theorem test_fetch_word_winop :
    (after (step (State.reset.withFetchWord 8 0b10))).map (fun s => (s.wdPort.req, s.wd.ptr)) = some (none, 1) := by
  decide

/-! ### Witnesses: states and operands that meet the hypotheses of the statements -/

/-- DecodeOfEncodeIsTheInstruction, at the ends of the operands' ranges. -/
theorem witness_DecodeOfEncodeIsTheInstruction :
    (Instr.matchTok 0xFFF 18).wf = true ∧ (Instr.matchTok 0 3).wf = true ∧ (Instr.encWrite 0 []).wf = true ∧
      (Instr.illegalCmd 0 0 0).wf = true ∧ (Instr.illegalCmd 0xFFFF 0xFFF 0xF).wf = true ∧
      (Instr.winRead .wd 4095).wf = true ∧ (Instr.winFind .we []).wf = true := by decide

/-- EncodeOfDecodeIsTheCommandWord, second clause. -/
theorem witness_EncodeOfDecodeIsTheCommandWord :
    ([0x61, 0x62] : List Byte).length = (0x00020001 : BitVec 32).toNat / 65536 := by decide

/-- MatchFieldsAreExactInverses, second clause, at both ends. -/
theorem witness_MatchFieldsAreExactInverses :
    (3 ≤ (3 : BitVec 5).toNat ∧ (3 : BitVec 5).toNat ≤ 18) ∧ 3 ≤ (18 : BitVec 5).toNat ∧ (18 : BitVec 5).toNat ≤ 18 := by
  decide

/-- StepRunsTheDecodedCommand; IllegalWordIsOnlyAnswered has its own word. -/
theorem witness_StepRunsTheDecodedCommand :
    (start [] [] [.command 0x00000002 []]).quiet ∧
      (start [] [] [.command 0x00000002 []]).port.pending = .command 0x00000002 [] :: [] := ⟨⟨rfl, rfl⟩, rfl⟩

/-- StepRunsTheWindowRequest, each clause. -/
theorem witness_StepRunsTheWindowRequest :
    (State.reset.withFetchWord 8 0).wePort.req = some (zeroRequest 0) ∧
      (State.reset.withFetchWord 8 1).wePort.req = none ∧
      (State.reset.withFetchWord 8 1).wdPort.req = some (zeroRequest 1) := by decide

/-- ReadTurnRunsTheDecodedUnit: a flag byte, a Literal, a Match. -/
theorem witness_ReadTurnRunsTheDecodedUnit :
    ((start [] [.byte 0x7F, .eof] []).source.answers = [0x7F].map SourceAnswer.byte ++ [.eof] ∧
        decodeWire (wireKind (start [] [.byte 0x7F, .eof] []).dec.freg) [0x7F] = .ok (.flags 0x7F, [])) ∧
      ((State.reset.withWire 0x17F [0x68]).source.answers = [0x68].map SourceAnswer.byte ++ [.eof] ∧
        decodeWire (wireKind (State.reset.withWire 0x17F [0x68]).dec.freg) [0x68] = .ok (.lit 0x68, [])) ∧
      ((State.reset.withWire 0x100 [0xD0, 0x90]).source.answers = [0xD0, 0x90].map SourceAnswer.byte ++ [.eof] ∧
        decodeWire (wireKind (State.reset.withWire 0x100 [0xD0, 0x90]).dec.freg) [0xD0, 0x90] =
          .ok (.matchTok 0x9D0 3, [])) := ⟨⟨rfl, rfl⟩, ⟨rfl, rfl⟩, ⟨rfl, rfl⟩⟩

/-- EncResetRestoresTheEncoder, with a pending block. -/
theorem witness_EncResetRestoresTheEncoder :
    ({ start [] [] [.encReset [.ok]] with
        enc := { st := .sinkErr, info := ⟨1⟩, flags := 0xFF, ntok := 8, stage := [0x69] } } : State).quiet ∧
      (start [] [] [.encReset [.ok]]).port.pending = .encReset [.ok] :: [] := ⟨⟨rfl, rfl⟩, rfl⟩

/-- DecResetRestoresTheDecoder, with a byte carried. -/
theorem witness_DecResetRestoresTheDecoder :
    ({ start [] [] [.decReset [.eof]] with
        dec := { st := .ok, info := ⟨0⟩, freg := 0x17F, carry := [0x61] } } : State).quiet ∧
      (start [] [] [.decReset [.eof]]).port.pending = .decReset [.eof] :: [] := ⟨⟨rfl, rfl⟩, rfl⟩

/-- ResetsSeedTheWindowsAlike, in both orders. -/
theorem witness_ResetsSeedTheWindowsAlike :
    ((start [] [] [.encReset [], .decReset []]).quiet ∧
        ∃ t u, step (start [] [] [.encReset [], .decReset []]) = .next t ∧ step t = .next u) ∧
      ((start [] [] [.decReset [], .encReset []]).quiet ∧
        ∃ t u, step (start [] [] [.decReset [], .encReset []]) = .next t ∧ step t = .next u) :=
  ⟨⟨⟨rfl, rfl⟩, _, _, rfl, rfl⟩, ⟨rfl, rfl⟩, _, _, rfl, rfl⟩

/-- WinFindAnswersTheLongestMatch: the longest lookahead; W7's match of 18 and W1's of 0 meet its two cases. -/
theorem witness_WinFindAnswersTheLongestMatch :
    (List.replicate 18 (0x61 : Byte)).length ≤ maxLen ∧
      (seeded [0x61]).find (List.replicate 18 0x61) = ⟨18, 0⟩ ∧
      (seeded [0x61]).find [0x61, 0x62] = ⟨1, 0⟩ ∧ (seeded [0x61]).find [] = ⟨0, 0⟩ := by decide

/-- The agreement premise in it, at the whole walk. -/
theorem witness_agrees : (seeded [0x61, 0x62]).agrees [0x61, 0x62] 2 2 := by
  refine ⟨by decide, by decide, ?_⟩
  decide

/-- WinFindRefusesALongLookahead, one byte over. -/
theorem witness_WinFindRefusesALongLookahead : maxLen < (List.replicate 19 (0 : Byte)).length := by decide

/-- WinReadGivesTheByteOrFaults, each clause at its end. -/
theorem witness_WinReadGivesTheByteOrFaults : 4095 < W ∧ W ≤ 4096 := by decide

/-- WinWriteStoresAtThePointer, WinWritesStoresInOrder, LitEmitsAndWritesItsByte: a stored Window; and the clauses
of the second. -/
theorem witness_WinWriteStoresAtThePointer :
    (seeded [0x61, 0x00, 0x62]).stored = true ∧ ((windows [0x61]).window .we).stored = true ∧
      (placed [(4095, 0x71)] 0 4096).wd.stored = true := by decide

theorem witness_WinWritesStoresInOrder :
    ((windows [0x61]).window .wd).stored = true ∧ ([0x78, 0x79] : List Byte).length ≤ W ∧
      (∀ i, i < 2 → 0 ≠ (((windows [0x61]).window .wd).ptr.toNat + i) % W) ∧
      (after (exec (.winWrite .wd 0x78) (windows [0x61]))).isSome = true := by decide

/-- LitEmitsAndWritesItsByte, with room and without. -/
theorem witness_LitEmitsAndWritesItsByte :
    State.reset.wd.stored = true ∧ ¬ State.reset.read.out.length < State.reset.read.cap ∧
      ({ State.reset with read := { cap := 1, out := [] } } : State).read.out.length < 1 := by decide

/-- MatchReplaysEarlierBytes, with the premise of its last clause; a distance of 1 and a length of 18. -/
theorem witness_MatchReplaysEarlierBytes :
    (windows [0x61]).wd.stored = true ∧ (18 : BitVec 5).toNat ≤ maxLen ∧
      (List.replicate 18 (0x61 : Byte)).length ≤ maxLen ∧ 0 < (18 : BitVec 5).toNat ∧
      (windows [0x61]).wd.find (List.replicate 18 0x61) = ⟨(18 : BitVec 5).toNat, (0 : Index).toNat⟩ := by decide

theorem witness_EncWriteRefusesAWrongLength : ([0x61] : List Byte).length ≠ (0 : BitVec 16).toNat := by decide

/-- TokenDecisionStagesWhatItConsumes, in the last place of a block. -/
theorem witness_TokenDecisionStagesWhatItConsumes :
    ({ windows [0x61] with enc := { st := .ok, info := ⟨0⟩, flags := 0, ntok := 7, stage := [] } } : State).enc.ntok.toNat
      < blockTokens := by decide

/-- EncWriteTakesATokenATurn, each clause. -/
theorem witness_EncWriteTakesATokenATurn :
    ([0x61] : List Byte).length = (1 : BitVec 16).toNat ∧ State.reset.enc.st = .ok ∧ ([] : List Byte).length < 1 ∧
      (encStep 0x61 [] State.reset).1 = 1 := by decide

/-- OneByteWriteIsALiteral, at its last token count. -/
theorem witness_OneByteWriteIsALiteral :
    ({ st := .ok, info := ⟨0⟩, flags := 0, ntok := 6, stage := [] } : Encoder).st = .ok ∧
      ({ st := .ok, info := ⟨0⟩, flags := 0, ntok := 6, stage := [] } : Encoder).ntok.toNat < 7 := by decide

/-- A block of seven Literals. -/
def sevenTokens : Encoder :=
  { st := .ok, info := ⟨0⟩, flags := 0x7F, ntok := 7, stage := [0x61, 0x62, 0x63, 0x64, 0x65, 0x66, 0x67] }

def sevenLiterals (sink : List SinkAnswer) : State := { start sink [] [] with enc := sevenTokens }

/-- EighthTokenFlushesTheBlock, with both answers of the sink. -/
theorem witness_EighthTokenFlushesTheBlock :
    (sevenLiterals [.ok]).enc.st = .ok ∧ (sevenLiterals [.ok]).enc.ntok = 7 ∧
      (sevenLiterals [.ok]).sink.answer [0xFF, 0x61, 0x62, 0x63, 0x64, 0x65, 0x66, 0x67, 0x68] = .ok ∧
      (sevenLiterals [.err ⟨1⟩]).sink.answer [0xFF, 0x61, 0x62, 0x63, 0x64, 0x65, 0x66, 0x67, 0x68] = .err ⟨1⟩ := by
  decide

/-- EncWriteAnswersAndConsumesAPrefix: a write that the sink fails, one that it takes, one to a closed unit. -/
theorem witness_EncWriteAnswersAndConsumesAPrefix :
    ([0x68] : List Byte).length = (1 : BitVec 16).toNat ∧
      (after (exec (.encWrite 1 [0x68]) (sevenLiterals [.err ⟨1⟩]))).map (fun s => s.enc.st) = some .sinkErr ∧
      (after (exec (.encWrite 1 [0x68]) (sevenLiterals [.ok]))).map (fun s => s.enc.st) = some .ok ∧
      ({ State.reset.enc with st := .closed } : Encoder).st ≠ .ok := by decide

/-- EncWriteTakesAllWhenTheSinkAccepts; the invariant in its conclusion is met here too. -/
theorem witness_EncWriteTakesAllWhenTheSinkAccepts :
    ([0x68] : List Byte).length = (1 : BitVec 16).toNat ∧ (sevenLiterals [.ok]).enc.st = .ok ∧
      (sevenLiterals [.ok]).sink.accepts 1 := by
  refine ⟨by decide, by decide, by decide, ?_⟩
  simp [sevenLiterals, start]

theorem sevenTokens_inv : sevenTokens.Inv := by
  refine ⟨by decide, fun _ => by decide, ?_, by decide⟩
  intro i h1 h2
  have h7 : sevenTokens.ntok.toNat = 7 := rfl
  simp only [blockTokens] at h2
  obtain rfl : i = 7 := by omega
  decide

/-- SinkBlocksAreTwoToSeventeenBytes: a write and a close that put a block on the sink. -/
theorem witness_SinkBlocksAreTwoToSeventeenBytes :
    (sevenLiterals [.ok]).enc.Inv ∧
      (after (exec (.encWrite 1 [0x68]) (sevenLiterals [.ok]))).map (fun s => s.sink.blocks.length) = some 1 ∧
      (after (exec .encClose (sevenLiterals [.ok]))).map (fun s => s.sink.blocks.length) = some 1 :=
  ⟨sevenTokens_inv, by decide, by decide⟩

/-- FlagBytePadsWithOnes: the last flag bit, of a token and of none; EightShiftsReturnToNeedFlags: both ends. -/
theorem witness_FlagBytePadsWithOnes : (7 < 8 ∧ ¬ 7 < sevenTokens.ntok.toNat) ∧ (0 ≤ 8 ∧ 8 ≤ 8) := by decide

/-- EncCloseFlushesAndCloses, each clause. -/
theorem witness_EncCloseFlushesAndCloses :
    ({ State.reset.enc with st := .closed } : Encoder).st ≠ .ok ∧
      (State.reset.enc.st = .ok ∧ State.reset.enc.ntok = 0) ∧
      ((sevenLiterals [.ok]).enc.st = .ok ∧ (sevenLiterals [.ok]).enc.ntok ≠ 0 ∧
        (sevenLiterals [.ok]).sink.answer [] = .ok ∧ (sevenLiterals [.err ⟨1⟩]).sink.answer [] = .err ⟨1⟩) := by decide

/-- DecReadDeliversWhatItDecodes and the split of reads: an open Decoder, with each of the three ends of a read. -/
theorem witness_DecReadDeliversWhatItDecodes :
    (start [] (source [0xFF, 0x61]) []).dec.st = .ok ∧
      (after (exec (.decRead 1) (start [] (source [0xFF, 0x61]) []))).map (fun s => s.dec.st) = some .ok ∧
      (after (exec (.decRead 2) (start [] (source [0xFF, 0x61]) []))).map (fun s => s.dec.st) = some .endOfStream ∧
      (after (exec (.decRead 2) (start [] [.err ⟨9⟩] []))).map (fun s => s.dec.st) = some .sourceErr := by decide

/-- DecReadTakesTurnsUntilFull, each clause: a full buffer, a turn that ends the command, a turn that goes on. -/
theorem witness_DecReadTakesTurnsUntilFull :
    (start [] (source []) []).dec.st = .ok ∧ State.reset.read.cap ≤ State.reset.read.out.length ∧
      (∃ t, readTurn { start [] (source []) [] with read := { cap := 1, out := [] } } = .ended t) ∧
      ∃ t, readTurn { start [] (source [0xFF, 0x61]) [] with read := { cap := 1, out := [] } } = .goOn t :=
  ⟨rfl, by decide, ⟨_, rfl⟩, ⟨_, rfl⟩⟩

/-- A Decoder with two bytes carried. -/
def carrying : State := { State.reset with dec := { st := .ok, info := ⟨0⟩, freg := 0x07F, carry := [0x61, 0x62] } }

/-- CarriedBytesComeFirst, at the whole carry. -/
theorem witness_CarriedBytesComeFirst :
    carrying.dec.st = .ok ∧ (2 : BitVec 16).toNat ≤ carrying.dec.carry.length := by decide

theorem witness_DecReadOfZeroChangesNothing : carrying.dec.st = .ok ∧ carrying.read = ReadContext.idle := by decide

/-- FirstReadAnswerEndsTheCommand, each clause. -/
theorem witness_FirstReadAnswerEndsTheCommand :
    ((start [] [.eof] []).dec.st = .ok ∧ (start [] [.eof] []).dec.carry = [] ∧ 0 < (1 : BitVec 16).toNat) ∧
      (start [] [.eof] []).source.answers = .eof :: [] ∧
      (start [] [.err ⟨9⟩] []).source.answers = .err ⟨9⟩ :: [] := by decide

theorem witness_TruncatedMatchProducesNothing :
    (State.reset.withWire 0x100 [0x00]).dec.st = .ok ∧ (State.reset.withWire 0x100 [0x00]).dec.carry = [] ∧
      0 < (8 : BitVec 16).toNat ∧ wireKind (State.reset.withWire 0x100 [0x00]).dec.freg = .matching ∧
      (State.reset.withWire 0x100 [0x00]).source.answers = .byte 0x00 :: .eof :: [] := by decide

/-- DecCloseClosesAndDropsTheCarry, each clause. -/
theorem witness_DecCloseClosesAndDropsTheCarry :
    carrying.dec.st = .ok ∧ ({ carrying.dec with st := .endOfStream } : Decoder).st = .endOfStream ∧
      ({ carrying.dec with st := .sourceErr } : Decoder).st = .sourceErr := by decide

/-- StickyUnitsAnswerTheirStatus, each clause. -/
theorem witness_StickyUnitsAnswerTheirStatus :
    (([] : List Byte).length = (0 : BitVec 16).toNat ∧ ({ State.reset.enc with st := .sinkErr } : Encoder).st ≠ .ok) ∧
      ({ State.reset.dec with st := .endOfStream } : Decoder).st ≠ .ok := by decide

/-- IllegalWordIsOnlyAnswered: a word for each of its cases. -/
theorem witness_IllegalWordIsOnlyAnswered :
    (start [] [] [.command 0x00010002 []]).quiet ∧
      (0x00010000 : BitVec 32).toNat % 16 = 0 ∧ 5 ≤ (0x00000005 : BitVec 32).toNat % 16 ∧
      (0x00000012 : BitVec 32).toNat / 16 % 4096 ≠ 0 ∧
      (0x00010002 : BitVec 32).toNat % 16 = 2 ∧ (0x00010002 : BitVec 32).toNat / 65536 ≠ 0 :=
  ⟨⟨rfl, rfl⟩, by decide⟩

/-- A failed Encoder and a closed Decoder, with a write presented. -/
def stuck : State :=
  { start [.ok] [.byte 0xFF] [.command 0x00010001 [0x61]] with
    enc := { st := .sinkErr, info := ⟨1⟩, flags := 0xFF, ntok := 8, stage := [0x69] }
    dec := { st := .closed, info := ⟨0⟩, freg := 1, carry := [] } }

theorem fetch_stuck : stuck.fetch = (.run (.encWrite 1 [0x61]), { stuck with port := { pending := [], responses := [] } }) :=
  rfl

/-- OnlyResetLeavesATerminalState, its first two clauses together, and its third. -/
theorem witness_OnlyResetLeavesATerminalState :
    (∃ t, step stuck = .next t) ∧ stuck.enc.st ≠ .ok ∧ stuck.dec.st.terminal = true ∧
      (∀ answers u, stuck.fetch ≠ (.encReset answers, u)) ∧ (∀ answers u, stuck.fetch ≠ (.decReset answers, u)) ∧
      ({ stuck with dec := { stuck.dec with st := .endOfStream } } : State).dec.st = .endOfStream := by
  refine ⟨⟨_, rfl⟩, by decide, by decide, ?_, ?_, rfl⟩ <;>
  · intro answers u h
    rw [fetch_stuck] at h
    cases h

/-- HostStepsCompleteOrRefuseABadLength, a step of each outcome. -/
theorem witness_HostStepsCompleteOrRefuseABadLength :
    (start [] [] [.command 0x00000002 []]).quiet ∧ (∃ t, step (start [] [] [.command 0x00000002 []]) = .next t) ∧
      (start [] [] [.command 0x00010001 []]).quiet ∧
      step (start [] [] [.command 0x00010001 []]) = .refused .dataLengthMismatch :=
  ⟨⟨rfl, rfl⟩, ⟨_, rfl⟩, ⟨rfl, rfl⟩, rfl⟩

/-- EncoderDoesNotSeeTheDecoder: two machines that differ on the Decoder's side alone. -/
theorem witness_EncoderDoesNotSeeTheDecoder :
    (start [] [] []).sameEncoder (start [] [.byte 0xFF] []) ∧
      (start [] [.byte 0xFF] []).cfg = (start [] [] []).cfg ∧
      ∃ t, exec (.encWrite 1 [0x61]) (start [] [] []) = .next t := ⟨⟨rfl, rfl, rfl, rfl⟩, rfl, _, rfl⟩

/-- DecoderDoesNotSeeTheEncoder: two machines that differ on the Encoder's side alone. -/
theorem witness_DecoderDoesNotSeeTheEncoder :
    (start [] (source [0xFF]) []).sameDecoder (start [.ok] (source [0xFF]) []) ∧
      (start [.ok] (source [0xFF]) []).cfg = (start [] (source [0xFF]) []).cfg ∧
      ∃ t, exec (.decRead 1) (start [] (source [0xFF]) []) = .next t := ⟨⟨rfl, rfl, rfl, rfl, rfl⟩, rfl, _, rfl⟩

theorem witness_ConfigurationNeverChanges : ∃ t, step stuck = .next t := ⟨_, rfl⟩

/-- EveryStepKeepsTheInvariant: a block of seven Literals, bytes in both Windows, a Decoder with two bytes carried,
and a close presented. -/
theorem witness_EveryStepKeepsTheInvariant :
    State.Inv { windows [0x61] with
      enc := sevenTokens, dec := carrying.dec, port := { pending := [.command 0x00000004 []], responses := [] } } ∧
      ∃ t, step { windows [0x61] with
        enc := sevenTokens, dec := carrying.dec, port := { pending := [.command 0x00000004 []], responses := [] } }
          = .next t := by
  have hw : (seeded [0x61]).Inv 0 := by
    refine ⟨by decide, fun _ => ⟨by decide, ?_⟩⟩
    intro k h1 h2
    have hb : (seeded [0x61]).buf = [(0, 0x61)] := by decide
    have h1' : 1 ≤ k := h1
    have e : ((0 : Index).toNat + k) % W = k := by
      have : (0 : Index).toNat = 0 := rfl
      rw [this, Nat.zero_add, Nat.mod_eq_of_lt h2]
    rw [hb, e]
    have h3 : ¬ k < 0 := by omega
    have h4 : ¬ k = 0 := by omega
    simp [Memory.read, h4, Memory.unlisted]
  exact ⟨⟨hw, hw, sevenTokens_inv, ⟨⟨6, 63, by decide, by decide, by decide⟩, by decide, fun h => absurd rfl h⟩, rfl⟩,
    _, rfl⟩

/-- ReadsMaySplitAnywhere: a carry cut in two. -/
theorem witness_ReadsMaySplitAnywhere :
    carrying.dec.st = .ok ∧ (3 : BitVec 16).toNat = (1 : BitVec 16).toNat + (2 : BitVec 16).toNat := by decide

/-- DecoderOfEncoderIsTheInput: one byte, and one read that goes past it. -/
theorem witness_DecoderOfEncoderIsTheInput :
    (∀ c ∈ ([[0x61]] : List (List Byte)), c.length < 65536) ∧ (start [.ok, .ok] [] []).enc.fresh ∧
      (start [.ok, .ok] [] []).we.stored = true ∧ (start [.ok, .ok] [] []).sink.blocks = [] ∧
      (start [.ok, .ok] [] []).sink.accepts (([[0x61]] : List (List Byte)).flatten.length + 1) ∧
      ∃ u, encodeAll [[0x61]] (start [.ok, .ok] [] []) = .next u ∧
        (start [] (source [0xFF, 0x61]) []).cfg = (start [.ok, .ok] [] []).cfg ∧
        (start [] (source [0xFF, 0x61]) []).wd = (start [.ok, .ok] [] []).we ∧
        (start [] (source [0xFF, 0x61]) []).dec.fresh ∧
        (start [] (source [0xFF, 0x61]) []).source.holds u.sink.blocks.flatten ∧
        ([[0x61]] : List (List Byte)).flatten.length < (([2] : List (BitVec 16)).map BitVec.toNat).sum := by
  refine ⟨by decide, ⟨rfl, rfl, rfl, rfl⟩, by decide, rfl, ⟨by decide, ?_⟩, _, rfl, rfl, rfl, ⟨rfl, rfl, rfl⟩, ⟨[], ?_⟩, ?_⟩
  · simp [start]
  · decide
  · decide

end Sys2Proof.Tests
end

section
/-! SUPPORT. Proofs of the scope family (00_scope.md): which steps complete and which are refused (R13), and the round
trip (R3). The round trip goes through a stream of tokens: the Encoder leaves one on its sink whose tokens stand for
its input, and the Decoder delivers what the tokens of such a stream stand for. -/

namespace Sys2Proof.Machine

open Sys2Proof

/-! ### The meaning of an instruction, where the proofs below need it -/

@[simp] theorem exec_encWrite (n : BitVec 16) (data : List Byte) (s : State) :
    exec (.encWrite n data) s = execEncWrite n data s := rfl

@[simp] theorem exec_encClose (s : State) : exec .encClose s = execEncClose s := rfl

@[simp] theorem exec_decRead (cap : BitVec 16) (s : State) : exec (.decRead cap) s = execDecRead cap s := rfl

@[simp] theorem exec_winFind (x : WinId) (la : List Byte) (s : State) :
    exec (.winFind x la) s = execWinFind x la s := rfl

/-! ### Which commands complete (00_scope.md R13, 60_exceptions.md R174) -/

theorem execEncWrite_refuses {n : BitVec 16} {data : List Byte} (h : data.length ≠ n.toNat) (s : State) :
    execEncWrite n data s = .refused .dataLengthMismatch := by
  simp [execEncWrite, h]

theorem execEncWrite_completes {n : BitVec 16} {data : List Byte} (h : data.length = n.toNat) (s : State) :
    ∃ t, execEncWrite n data s = .next t := by
  simp only [execEncWrite, h, ne_eq, not_true_eq_false, if_false]
  split <;> exact ⟨_, rfl⟩

theorem execEncClose_completes (s : State) : ∃ t, execEncClose s = .next t := by
  unfold execEncClose
  split <;> exact ⟨_, rfl⟩

theorem execDecRead_completes (cap : BitVec 16) (s : State) : ∃ t, execDecRead cap s = .next t := by
  unfold execDecRead
  split <;> exact ⟨_, rfl⟩

theorem execDecClose_completes (s : State) : ∃ t, execDecClose s = .next t := by
  unfold execDecClose
  split <;> exact ⟨_, rfl⟩

/-- R76: the count field, by its value. -/
theorem cmdN_toNat (w : BitVec 32) : (cmdN w).toNat = w.toNat / 65536 := by
  have := w.isLt
  simp only [cmdN, BitVec.extractLsb'_toNat, Nat.shiftRight_eq_div_pow]
  omega

/-- R76, R78: the fields of an ENC_WRITE word, by the word's value. -/
theorem encWriteWord_toNat {w : BitVec 32} (hr : cmdRsv w = 0) (ho : cmdOp w = 1) : w.toNat % 65536 = 1 := by
  have hr' : (cmdRsv w).toNat = 0 := by rw [hr]; rfl
  have ho' : (cmdOp w).toNat = 1 := by rw [ho]; rfl
  simp only [cmdRsv, cmdOp, BitVec.extractLsb'_toNat, Nat.shiftRight_eq_div_pow] at hr' ho'
  omega

/-- Every command word completes, but for an ENC_WRITE with data of another length than its word says. -/
theorem exec_decodeCmd_completes_or_refuses (w : BitVec 32) (data : List Byte) (s : State) :
    (∃ t, exec (decodeCmd w data) s = .next t) ∨
      (exec (decodeCmd w data) s = .refused .dataLengthMismatch ∧ w.toNat % 65536 = 1 ∧
        data.length ≠ w.toNat / 65536) := by
  unfold decodeCmd
  split
  case isTrue hw =>
    by_cases hl : data.length = (cmdN w).toNat
    · exact .inl (execEncWrite_completes hl s)
    · exact .inr ⟨execEncWrite_refuses hl s, encWriteWord_toNat hw.1 hw.2, cmdN_toNat w ▸ hl⟩
  case isFalse =>
    left
    split
    · exact execEncClose_completes s
    split
    · exact execDecRead_completes _ s
    split
    · exact execDecClose_completes s
    · exact ⟨_, rfl⟩

/-- Settles O44, from what a step takes and which commands complete. -/
theorem hostStepsCompleteOrRefuseABadLength : Obligations.HostStepsCompleteOrRefuseABadLength := by
  intro s ⟨hwe, hwd⟩
  have h := step_kind s
  generalize step s = o at h ⊢
  cases h with
  | win x r s' _ _ _ _ _ _ _ _ hreq =>
    rcases hreq with h | h
    · exact absurd hwe h
    · exact absurd hwd h
  | cmd w data rest hp =>
    rcases exec_decodeCmd_completes_or_refuses w data (s.setPort { s.port with pending := rest }) with
      hn | ⟨hr, hw, hl⟩
    · exact .inl hn
    · exact .inr ⟨hr, w, data, rest, hp, hw, hl⟩
  | er answers u => exact .inl ⟨_, rfl⟩
  | dr answers u => exact .inl ⟨_, rfl⟩
  | idle => exact .inl ⟨_, rfl⟩

/-- Settles O15: the length check of WIN_FIND comes before anything else. -/
theorem winFindRefusesALongLookahead : Obligations.WinFindRefusesALongLookahead := by
  intro x la s h
  rw [exec_winFind, execWinFind, if_pos h]

/-- Settles O20: the length check of ENC_WRITE comes before the Encoder's status. -/
theorem encWriteRefusesAWrongLength : Obligations.EncWriteRefusesAWrongLength := by
  intro n data s h
  rw [exec_encWrite, execEncWrite_refuses h]

/-! ### Tokens of a stream, as they stand on the wire -/

/-- A token of a block: the byte of a Literal, or the two bytes of a Match (R72, R73). -/
inductive Token where
  | literal (d : Byte)
  | pair (b0 b1 : Byte)

/-- The flag bit that announces the token (R71). -/
def Token.flag : Token → Bool
  | .literal _ => true
  | .pair _ _ => false

/-- The token's bytes on the wire. -/
def Token.wire : Token → List Byte
  | .literal d => [d]
  | .pair b0 b1 => [b0, b1]

/-- The bytes the token stands for, next to a Window (R145, R146). -/
def Token.bytes (x : Window) : Token → List Byte
  | .literal d => [d]
  | .pair b0 b1 => x.replayed (matchLength b1).toNat (matchOffset b0 b1).toNat

/-- The bytes a row of tokens stands for, each written to the Window before the next is read. -/
def Window.decode : Window → List Token → List Byte
  | _, [] => []
  | x, k :: ks => k.bytes x ++ (x.writeBytes (k.bytes x)).decode ks

@[simp] theorem Window.decode_nil (x : Window) : x.decode [] = [] := rfl

theorem Window.decode_cons (x : Window) (k : Token) (ks : List Token) :
    x.decode (k :: ks) = k.bytes x ++ (x.writeBytes (k.bytes x)).decode ks := rfl

theorem Window.decode_append (x : Window) (ks ls : List Token) :
    x.decode (ks ++ ls) = x.decode ks ++ (x.writeBytes (x.decode ks)).decode ls := by
  induction ks generalizing x with
  | nil => rfl
  | cons k ks ih => simp [Window.decode_cons, ih, Window.writeBytes_append]

/-- A Decoder with this flag register reads these wire bytes, and the end of the source after them, as these tokens
(R143 to R148). Flag bits left over at the end are pad bits: nothing follows them. -/
inductive WireStream (cfg : Config) : BitVec 9 → List Byte → List Token → Prop
  | done (freg : BitVec 9) : WireStream cfg freg [] []
  | load {f : Byte} {bs : List Byte} {ks : List Token} :
      WireStream cfg (loadedFlags cfg f) bs ks → WireStream cfg 1 (f :: bs) ks
  | token {freg : BitVec 9} {k : Token} {bs : List Byte} {ks : List Token} :
      freg ≠ 1 → freg.getLsbD 0 = k.flag → WireStream cfg (freg >>> 1) bs ks →
        WireStream cfg freg (k.wire ++ bs) (k :: ks)

/-! ### The Decoder reads a stream -/

theorem Source.holds_nil {r : Source} (h : r.holds []) : r.answer = .eof := by
  obtain ⟨rest, h⟩ := h
  exact Source.answer_cons h

theorem Source.holds_cons {r : Source} {b : Byte} {bs : List Byte} (h : r.holds (b :: bs)) :
    r.answer = .byte b ∧ r.after.holds bs := by
  obtain ⟨rest, h⟩ := h
  refine ⟨Source.answer_cons h, rest, ?_⟩
  rw [Source.after_byte h]
  rfl

/-- A turn of DEC_READ that serves the first of these tokens and leaves the others in the stream, or finds the
source at its end when there is none. -/
inductive ServesFirst (cfg : Config) (wd : Window) : List Token → Turn → Prop
  | ends (freg : BitVec 9) (r : Source) : ServesFirst cfg wd [] (.ends .endOfSource freg r)
  | token {k : Token} {ks : List Token} {freg : BitVec 9} {bs : List Byte} {r : Source} : r.holds bs →
      WireStream cfg freg bs ks → ServesFirst cfg wd (k :: ks) (.token (k.bytes wd) freg r)

theorem tokenOf_holds_nil {freg : BitVec 9} {wd : Window} {r : Source} (hr : r.holds []) :
    tokenOf freg wd r = .ends .endOfSource freg r.after := by
  simp [tokenOf, Source.holds_nil hr]

theorem tokenOf_holds_wire {freg : BitVec 9} {wd : Window} {r : Source} {k : Token} {bs : List Byte}
    (hk : freg.getLsbD 0 = k.flag) (hr : r.holds (k.wire ++ bs)) :
    ∃ r' : Source, r'.holds bs ∧ tokenOf freg wd r = .token (k.bytes wd) (freg >>> 1) r' := by
  cases k with
  | literal d =>
    obtain ⟨ha, hr⟩ := Source.holds_cons hr
    exact ⟨_, hr, by simp only [tokenOf, ha, hk]; rfl⟩
  | pair b0 b1 =>
    obtain ⟨ha, hr⟩ := Source.holds_cons hr
    obtain ⟨ha', hr⟩ := Source.holds_cons hr
    exact ⟨_, hr, by simp only [tokenOf, ha, ha', hk]; rfl⟩

theorem tokenOf_stream {cfg : Config} {freg : BitVec 9} {bs : List Byte} {ks : List Token} {r : Source} (wd : Window)
    (h : WireStream cfg freg bs ks) (hne : freg ≠ 1) (hr : r.holds bs) :
    ServesFirst cfg wd ks (tokenOf freg wd r) := by
  cases h with
  | done => rw [tokenOf_holds_nil hr]; exact .ends _ _
  | load => exact absurd rfl hne
  | token _ hk hs =>
    obtain ⟨r', hr', ht⟩ := tokenOf_holds_wire (wd := wd) hk hr
    rw [ht]
    exact .token hr' hs

/-- R143, R144: a turn loads a flag byte where the stream has one, then serves a token. -/
theorem turnOf_stream {cfg : Config} {freg : BitVec 9} {bs : List Byte} {ks : List Token} {r : Source} (wd : Window)
    (h : WireStream cfg freg bs ks) (hr : r.holds bs) : ServesFirst cfg wd ks (turnOf cfg freg wd r) := by
  by_cases h1 : freg = 1
  · rw [turnOf, if_pos h1]
    cases h with
    | done => rw [Source.holds_nil hr]; exact .ends _ _
    | load hs =>
      obtain ⟨ha, hr⟩ := Source.holds_cons hr
      rw [ha]
      exact tokenOf_stream wd hs (loadedFlags_ne_one _ _) hr
    | token hne => exact absurd h1 hne
  · rw [turnOf, if_neg h1]
    exact tokenOf_stream wd h h1 hr

/-- Turns of DEC_READ that decode all of these tokens and find the end of the source, or that decode some of them and
leave the others in the stream. -/
inductive PullsFrom (cfg : Config) (wd : Window) (ks : List Token) (p : Pulled) : Prop
  | all : p.stop = some .endOfSource → p.bytes = wd.decode ks → PullsFrom cfg wd ks p
  | part (bs : List Byte) (ls : List Token) : p.stop = none → p.source.holds bs → WireStream cfg p.freg bs ls →
      wd.decode ks = p.bytes ++ (wd.writeBytes p.bytes).decode ls → PullsFrom cfg wd ks p

/-- R140: the loop of DEC_READ keeps its place in the stream. -/
theorem pull_stream (cfg : Config) (n : Nat) : ∀ {need : Nat} {freg : BitVec 9} {wd : Window} {r : Source}
    {bs : List Byte} {ks : List Token}, WireStream cfg freg bs ks → r.holds bs →
    PullsFrom cfg wd ks (pull cfg n need freg wd r) := by
  induction n with
  | zero => exact fun hs hr => .part _ _ rfl hr hs rfl
  | succ n ih =>
    intro need freg wd r bs ks hs hr
    cases need with
    | zero => exact .part _ _ rfl hr hs rfl
    | succ need =>
      have ht := turnOf_stream wd hs hr
      rw [pull]
      generalize turnOf cfg freg wd r = u at ht
      cases ht with
      | ends => exact .all rfl rfl
      | @token k _ _ _ _ hr' hs' =>
        rcases ih (need := need + 1 - (k.bytes wd).length) (wd := wd.writeBytes (k.bytes wd)) hs' hr' with
          ⟨hp, hb⟩ | ⟨bs', ls, hp, hr'', hs'', hb⟩
        · exact .all hp (by simp only [hb, Window.decode_cons])
        · refine .part bs' ls hp hr'' hs'' ?_
          simp only [Window.decode_cons, hb, Window.writeBytes_append, List.append_assoc]

/-! ### What DEC_READs deliver -/

/-- An open Decoder that still has these bytes to deliver, some of them carried; then `WD` will be `wd`. -/
structure State.Delivering (d : State) (y : List Byte) (wd : Window) : Prop where
  st_ok : d.dec.st = .ok
  stream : ∃ bs ks, d.source.holds bs ∧ WireStream d.cfg d.dec.freg bs ks ∧
    y = d.dec.carry ++ d.wd.decode ks ∧ wd = d.wd.writeBytes (d.wd.decode ks)

/-- A Decoder that has delivered everything and met the end of the source. -/
structure State.Delivered (d : State) (wd : Window) : Prop where
  st_end : d.dec.st = .endOfStream
  wd_eq : d.wd = wd

/-- The Decoder has these bytes to deliver before the end. -/
def State.Delivers (d : State) (y : List Byte) (wd : Window) : Prop :=
  d.Delivering y wd ∨ (d.Delivered wd ∧ y = [])

/-- What one DEC_READ of capacity `cap` does to a Decoder that has `y` to deliver. -/
structure ReadsOne (cap : Nat) (y : List Byte) (wd : Window) (d t : State) (r : Response) : Prop where
  responses : t.port.responses = d.port.responses ++ [r]
  out : r.out = y.take cap
  delivers : t.Delivers (y.drop cap) wd
  ends : d.Delivered wd ∨ y.length < cap → t.Delivered wd

/-- R154: at END a read delivers nothing and changes nothing. -/
theorem State.Delivered.read {d : State} {wd : Window} (h : d.Delivered wd) (cap : BitVec 16) :
    ∃ t r, execDecRead cap d = .next t ∧ ReadsOne cap.toNat [] wd d t r := by
  refine ⟨d.respond d.dec.sticky, d.dec.sticky, ?_, ?_⟩
  · simp [execDecRead, h.st_end]
  · have ht : (d.respond d.dec.sticky).Delivered wd := ⟨h.st_end, h.wd_eq⟩
    exact ⟨rfl, by simp [Decoder.sticky], .inr ⟨ht, by simp⟩, fun _ => ht⟩

/-- R140 to R142, R148: an open Decoder's read delivers from the carry and the stream, and what is over stays carried. -/
theorem State.Delivering.read {d : State} {y : List Byte} {wd : Window} (h : d.Delivering y wd) (cap : BitVec 16) :
    ∃ t r, execDecRead cap d = .next t ∧ ReadsOne cap.toNat y wd d t r := by
  obtain ⟨ho, bs, ks, hr, hs, hy, hwd⟩ := h
  have hp := pull_stream d.cfg cap.toNat (need := cap.toNat - d.dec.carry.length) (wd := d.wd) hs hr
  obtain ⟨hfull, hshort, -⟩ :=
    pull_spec d.cfg cap.toNat (cap.toNat - d.dec.carry.length) d.dec.freg d.wd d.source (by omega)
  rw [execDecRead_open cap d ho]
  unfold State.pulled
  generalize pull d.cfg cap.toNat (cap.toNat - d.dec.carry.length) d.dec.freg d.wd d.source = p at *
  have hnot : ¬ d.Delivered wd := fun h => by rw [h.st_end] at ho; cases ho
  rcases hp with ⟨hstop, hb⟩ | ⟨bs', ls, hstop, hr', hs', hb⟩
  · have hlt := (hshort _ hstop).1
    rw [← hb] at hy hwd
    have hylt : y.length < cap.toNat := by rw [hy, List.length_append]; omega
    rw [hstop]
    exact ⟨_, _, rfl, rfl, by rw [hy]; rfl, .inr ⟨⟨rfl, hwd.symm⟩, List.drop_of_length_le hylt.le⟩,
      fun _ => ⟨rfl, hwd.symm⟩⟩
  · have hge := (hfull hstop).1
    have hy' : y = (d.dec.carry ++ p.bytes) ++ (d.wd.writeBytes p.bytes).decode ls := by
      rw [hy, hb, List.append_assoc]
    have hle : cap.toNat ≤ (d.dec.carry ++ p.bytes).length := by rw [List.length_append]; omega
    rw [hstop]
    refine ⟨_, _, rfl, rfl, ?_, .inl ⟨ho, bs', ls, hr', hs', ?_, ?_⟩, fun h => ?_⟩
    · rw [hy', List.take_append_of_le_length hle]; rfl
    · rw [hy', List.drop_append_of_le_length hle]; rfl
    · rw [hwd, hb, Window.writeBytes_append]; rfl
    · rcases h with h | h
      · exact absurd h hnot
      · rw [hy', List.length_append] at h; omega

theorem State.Delivers.read {d : State} {y : List Byte} {wd : Window} (h : d.Delivers y wd) (cap : BitVec 16) :
    ∃ t r, execDecRead cap d = .next t ∧ ReadsOne cap.toNat y wd d t r := by
  rcases h with h | ⟨h, rfl⟩
  · exact h.read cap
  · exact h.read cap

/-- R153: reads of any capacities deliver the bytes in order, as many as the capacities add up to. -/
theorem State.Delivers.readAll {y : List Byte} {wd : Window} (caps : List (BitVec 16)) {d : State}
    (h : d.Delivers y wd) :
    ∃ v rs, readAll caps d = .next v ∧ v.port.responses = d.port.responses ++ rs ∧
      delivered rs = y.take (caps.map BitVec.toNat).sum ∧
      (d.Delivered wd ∨ y.length < (caps.map BitVec.toNat).sum → v.Delivered wd) := by
  induction caps generalizing d y with
  | nil => exact ⟨d, [], rfl, by simp, by simp [delivered], by simp⟩
  | cons cap caps ih =>
    obtain ⟨t, r, ht, hres, hout, hdel, hend⟩ := h.read cap
    obtain ⟨v, rs, hv, hres', hout', hend'⟩ := ih hdel
    refine ⟨v, r :: rs, ?_, ?_, ?_, fun h => hend' ?_⟩
    · simp only [Machine.readAll, exec_decRead, ht, hv]
    · simp [hres', hres]
    · rw [List.map_cons, List.sum_cons, List.take_add, ← hout, ← hout']
      rfl
    · rw [List.map_cons, List.sum_cons] at h
      rw [List.length_drop]
      by_cases hlt : y.length < cap.toNat
      · exact .inl (hend (.inr hlt))
      · exact h.imp (fun h => hend (.inl h)) (by omega)

/-! ### A block is a stream -/

/-- Flag bits below a sentinel announce the tokens whose payload follows (R144, R147). -/
theorem WireStream.tokens {cfg : Config} {bs : List Byte} {ls : List Token} (ks : List Token) {freg : BitVec 9}
    {top : Nat} (htop : ks.length ≤ top) (hbit : freg.getLsbD top = true)
    (hflags : ∀ i (h : i < ks.length), freg.getLsbD i = ks[i].flag)
    (hs : WireStream cfg (freg >>> ks.length) bs ls) :
    WireStream cfg freg (ks.flatMap Token.wire ++ bs) (ks ++ ls) := by
  induction ks generalizing freg top with
  | nil => simpa using hs
  | cons k ks ih =>
    rw [List.length_cons] at htop hs
    obtain ⟨top, rfl⟩ : ∃ m, top = m + 1 := ⟨top - 1, by omega⟩
    have hne : freg ≠ 1 := by
      rintro rfl
      simp [BitVec.getLsbD_one] at hbit
    rw [List.flatMap_cons, List.append_assoc]
    refine .token hne (hflags 0 (by simp)) (ih (top := top) (by omega) ?_ (fun i hi => ?_) ?_)
    · rw [BitVec.getLsbD_ushiftRight, Nat.add_comm]
      exact hbit
    · rw [BitVec.getLsbD_ushiftRight, Nat.add_comm]
      exact hflags (i + 1) (by simpa using hi)
    · rwa [Nat.add_comm, BitVec.shiftRight_add] at hs

theorem wireFlags_wireFlags (reversed : Bool) (f : Byte) : wireFlags reversed (wireFlags reversed f) = f := by
  cases reversed
  · rfl
  · exact BitVec.reverse_reverse_eq

theorem padFlags_bit (f : BitVec 8) {n : BitVec 4} {i : Nat} (hi : i < n.toNat) :
    (padFlags f n).getLsbD i = f.getLsbD i := by
  simp [padFlags, hi]

/-- R126, R143: a block's flag byte, loaded, has the tokens' flag bits below a sentinel. -/
theorem loadedFlags_flagByte (cfg : Config) (e : Encoder) :
    loadedFlags cfg (flagByte cfg e) = 0x100 ||| (padFlags e.flags e.ntok).setWidth 9 := by
  rw [loadedFlags, flagByte, wireFlags_wireFlags]

theorem loadedFlags_sentinel (cfg : Config) (f : Byte) : (loadedFlags cfg f).getLsbD 8 = true := by
  simp [loadedFlags]

theorem loadedFlags_shift_eight (cfg : Config) (f : Byte) : loadedFlags cfg f >>> 8 = 1 := by
  obtain ⟨g, hg, h⟩ := freg_loaded cfg f
  apply BitVec.eq_of_toNat_eq
  rw [BitVec.toNat_ushiftRight, Nat.shiftRight_eq_div_pow, h]
  show _ = 1
  omega

/-- The Encoder's block holds these tokens (R26 to R28). -/
structure Encoder.Holds (e : Encoder) (ks : List Token) : Prop where
  ntok_eq : e.ntok.toNat = ks.length
  flag_eq : ∀ i (h : i < ks.length), e.flags.getLsbD i = ks[i].flag
  flag_clear : ∀ i, ks.length ≤ i → e.flags.getLsbD i = false
  stage_eq : e.stage = ks.flatMap Token.wire

theorem Encoder.holds_empty {e : Encoder} (hf : e.flags = 0) (hn : e.ntok = 0) (hs : e.stage = []) : e.Holds [] :=
  ⟨by rw [hn]; rfl, by simp, by simp [hf], by rw [hs]; rfl⟩

theorem Encoder.Holds.withLit {e : Encoder} {ks : List Token} (h : e.Holds ks) (hlt : ks.length < blockTokens)
    (b : Byte) : (e.withLit b).Holds (ks ++ [.literal b]) := by
  have hn : e.ntok.toNat < blockTokens := h.ntok_eq ▸ hlt
  have hbit : ∀ i, (literalFlag e.flags e.ntok).getLsbD i = if i = ks.length then true else e.flags.getLsbD i := by
    intro i
    rcases lt_or_ge i blockTokens with hi | hi
    · rw [literalFlag_bit hn _ hi, h.ntok_eq]
    · rw [BitVec.getLsbD_of_ge _ _ hi, BitVec.getLsbD_of_ge _ _ hi, if_neg (by omega)]
  refine ⟨?_, fun i hi => ?_, fun i hi => ?_, ?_⟩
  · show (e.ntok + 1).toNat = _
    rw [ntok_succ _ hn, h.ntok_eq]
    simp
  · show (literalFlag e.flags e.ntok).getLsbD i = _
    rw [hbit, List.getElem_append]
    split
    · rw [dif_neg (by omega)]
      simp [Token.flag]
    · rename_i hne
      have hlt : i < ks.length := by simp at hi; omega
      rw [dif_pos hlt, h.flag_eq i hlt]
  · show (literalFlag e.flags e.ntok).getLsbD i = _
    simp only [List.length_append, List.length_singleton] at hi
    rw [hbit, if_neg (by omega), h.flag_clear i (by omega)]
  · simp [Encoder.withLit, h.stage_eq, Token.wire]

theorem Encoder.Holds.withMatch {e : Encoder} {ks : List Token} (h : e.Holds ks) (hlt : ks.length < blockTokens)
    (off : Index) (len : BitVec 5) : (e.withMatch off len).Holds (ks ++ [.pair (matchLow off) (matchHigh off len)]) := by
  refine ⟨?_, fun i hi => ?_, fun i hi => ?_, ?_⟩
  · show (e.ntok + 1).toNat = _
    rw [ntok_succ _ (h.ntok_eq ▸ hlt), h.ntok_eq]
    simp
  · show e.flags.getLsbD i = _
    rw [List.getElem_append]
    split
    · rename_i hlt
      exact h.flag_eq i hlt
    · rw [h.flag_clear i (by omega)]
      simp [Token.flag]
  · exact h.flag_clear i (by simp at hi; omega)
  · simp [Encoder.withMatch, h.stage_eq, Token.wire]

/-- The tokens of a flushed block, once its flag byte is loaded (R125, R126). -/
theorem Encoder.Holds.stream {e : Encoder} {ks ls : List Token} (h : e.Holds ks) (hle : ks.length ≤ blockTokens)
    {cfg : Config} {bs : List Byte} (hs : WireStream cfg (loadedFlags cfg (flagByte cfg e) >>> ks.length) bs ls) :
    WireStream cfg 1 (flagByte cfg e :: e.stage ++ bs) (ks ++ ls) := by
  rw [h.stage_eq]
  refine .load (WireStream.tokens ks hle (loadedFlags_sentinel _ _) (fun i hi => ?_) hs)
  rw [loadedFlags_flagByte, BitVec.getLsbD_or, BitVec.getLsbD_setWidth, padFlags_bit _ (h.ntok_eq ▸ hi), h.flag_eq i hi]
  have h9 : ∀ i, i < 8 → (0x100 : BitVec 9).getLsbD i = false := by decide
  have hi8 : i < 8 := lt_of_lt_of_le hi hle
  rw [h9 i hi8, decide_eq_true (by omega)]
  simp

/-- Bytes that are whole blocks: the stream goes on after them as it would from its start. -/
def WholeBlocks (cfg : Config) (bs : List Byte) (ks : List Token) : Prop :=
  ∀ bs' ls, WireStream cfg 1 bs' ls → WireStream cfg 1 (bs ++ bs') (ks ++ ls)

theorem wholeBlocks_nil (cfg : Config) : WholeBlocks cfg [] [] := fun _ _ h => h

theorem WholeBlocks.append {cfg : Config} {bs bs' : List Byte} {ks ks' : List Token} (h : WholeBlocks cfg bs ks)
    (h' : WholeBlocks cfg bs' ks') : WholeBlocks cfg (bs ++ bs') (ks ++ ks') := by
  intro bs'' ls hs
  rw [List.append_assoc, List.append_assoc]
  exact h _ _ (h' _ _ hs)

/-- A block of eight tokens is whole: its flag bits are used up at its end (R147). -/
theorem Encoder.Holds.wholeBlocks {e : Encoder} {ks : List Token} (h : e.Holds ks) (h8 : ks.length = blockTokens)
    (cfg : Config) : WholeBlocks cfg (flagByte cfg e :: e.stage) ks := by
  intro bs ls hs
  refine h.stream h8.le ?_
  rw [h8, loadedFlags_shift_eight]
  exact hs

/-! ### The wire form of a Match (30_encoding.md R74) -/

/-- A length of 3 to 18, less 3, has its bits in the low four. -/
theorem lengthField_high_bits {len : BitVec 5} (hlo : minLen ≤ len.toNat) (hhi : len.toNat ≤ maxLen) {i : Nat}
    (hi : 4 ≤ i) : (len - 3).getLsbD i = false := by
  have h3 : (3 : BitVec 5).toNat = 3 := rfl
  have hlt : (len - 3).toNat < 2 ^ 4 := by
    simp only [minLen, maxLen] at hlo hhi
    rw [BitVec.toNat_sub, h3]
    omega
  exact Nat.testBit_lt_two_pow (lt_of_lt_of_le hlt (Nat.pow_le_pow_right (by decide) hi))

/-- The second byte of a Match is offset bits 11..8 over length - 3. -/
theorem matchHigh_bit (off : Index) {len : BitVec 5} (hlo : minLen ≤ len.toNat) (hhi : len.toNat ≤ maxLen) {i : Nat}
    (hi : i < 8) : (matchHigh off len).getLsbD i = if i < 4 then (len - 3).getLsbD i else off.getLsbD (i + 4) := by
  have hmask : (0xF00 : Index).getLsbD (i + 4) = decide (4 ≤ i) := by
    interval_cases i <;> rfl
  simp only [matchHigh, BitVec.getLsbD_or, BitVec.getLsbD_setWidth, BitVec.getLsbD_ushiftRight, BitVec.getLsbD_and, hi,
    Nat.add_comm 4 i, hmask]
  split
  · simp [show ¬ 4 ≤ i by omega]
  · rw [lengthField_high_bits hlo hhi (by omega)]
    simp [show 4 ≤ i by omega]

theorem matchOffset_matchHigh (off : Index) {len : BitVec 5} (hlo : minLen ≤ len.toNat) (hhi : len.toNat ≤ maxLen) :
    matchOffset (matchLow off) (matchHigh off len) = off := by
  apply BitVec.eq_of_getLsbD_eq
  intro i hi
  simp only [matchOffset, matchLow, BitVec.getLsbD_or, BitVec.getLsbD_shiftLeft, BitVec.getLsbD_setWidth,
    BitVec.getLsbD_extractLsb', BitVec.getLsbD_and, hi]
  by_cases h8 : i < 8
  · have hmask : (0x0FF : Index).getLsbD i = true := by interval_cases i <;> rfl
    rw [hmask]
    simp [h8]
  · rw [matchHigh_bit off hlo hhi (by omega), if_neg (by omega), show 4 + (i - 8) + 4 = i by omega]
    simp [h8, show i - 8 < 4 by omega, show i - 8 < 12 by omega]

theorem matchLength_matchHigh (off : Index) {len : BitVec 5} (hlo : minLen ≤ len.toNat) (hhi : len.toNat ≤ maxLen) :
    matchLength (matchHigh off len) = len := by
  have hfield : ((matchHigh off len).extractLsb' 0 4).setWidth 5 = len - 3 := by
    apply BitVec.eq_of_getLsbD_eq
    intro i hi
    rw [BitVec.getLsbD_setWidth, BitVec.getLsbD_extractLsb', Nat.zero_add]
    by_cases h4 : i < 4
    · rw [matchHigh_bit off hlo hhi (by omega), if_pos h4]
      simp [h4, hi]
    · rw [lengthField_high_bits hlo hhi (by omega)]
      simp [h4]
  rw [matchLength, hfield, BitVec.sub_add_cancel]

/-! ### The Encoder stages tokens that stand for its input -/

/-- R121, R124, R105: a token decision stages a token whose bytes are those it consumes. -/
theorem encStep_token (b : Byte) (rest : List Byte) {s : State} (hw : s.we.stored = true) :
    ∃ (k : Token) (e : Encoder), k.bytes s.we = (b :: rest).take (encStep b rest s).1 ∧
      (encStep b rest s).2 = (s.setEnc e).setWe (s.we.writeBytes ((b :: rest).take (encStep b rest s).1)) ∧
      ∀ ks, s.enc.Holds ks → ks.length < blockTokens → e.Holds (ks ++ [k]) := by
  rcases encStep_cases b rest s with ⟨h, _⟩ | ⟨f, hf, hlo, hhi, -, h⟩
  · rw [h]
    exact ⟨.literal b, s.enc.withLit b, rfl, rfl, fun ks hk hlt => hk.withLit hlt b⟩
  · rw [h]
    refine ⟨.pair _ _, _, ?_, rfl, fun ks hk hlt => hk.withMatch hlt _ _⟩
    have hla : ((b :: rest).take maxLen).length ≤ maxLen := List.length_take_le _ _
    have hoff := s.we.find_off_lt hla
    rw [hf] at hoff
    have hlen' : (BitVec.ofNat 5 f.len).toNat = f.len := Nat.mod_eq_of_lt (by simp only [maxLen] at hhi; omega)
    have hoff' : (BitVec.ofNat 12 f.off).toNat = f.off := Nat.mod_eq_of_lt hoff
    rcases s.we.find_spec hla with ⟨h0, -⟩ | ⟨d, L0, hat⟩
    · rw [← hf, h0] at hlo
      exact absurd hlo (by decide)
    · rw [hf] at hat
      rw [Token.bytes, matchOffset_matchHigh _ (hlen'.symm ▸ hlo) (hlen'.symm ▸ hhi),
        matchLength_matchHigh _ (hlen'.symm ▸ hlo) (hlen'.symm ▸ hhi), hlen', hoff', Window.replayed_found hw hla hat,
        List.take_take, Nat.min_eq_left hhi]

/-- The Encoder has taken the bytes `x` since `WE` was `x0`: they are written to `WE`, and they are what the blocks
on the sink and the tokens of the open block stand for. -/
structure State.Encoded (x0 : Window) (x : List Byte) (s : State) : Prop where
  we_eq : s.we = x0.writeBytes x
  tokens : ∃ ks ls, WholeBlocks s.cfg s.sink.blocks.flatten ks ∧ s.enc.Holds ls ∧ ls.length < blockTokens ∧
    x = x0.decode (ks ++ ls)

/-- A flush of a full block (R125) keeps what has been encoded. -/
theorem flushOrFail_blocks {s t : State} (h : flushOrFail s = .goOn t) :
    t.cfg = s.cfg ∧ t.we = s.we ∧ t.enc = s.enc.emptied ∧ t.sink.blocks = s.sink.blocks ++ [s.block] := by
  cases ha : s.sink.answer s.block with
  | ok =>
    rw [flushOrFail_ok ha] at h
    cases h
    exact ⟨rfl, rfl, rfl, Sink.after_blocks_ok ha⟩
  | err e =>
    rw [flushOrFail_err ha] at h
    cases h

/-- R120, R125: a turn takes the bytes its token decision consumes, whether it flushes the block or not. -/
theorem encTurn_encoded {x0 : Window} (hx0 : x0.stored = true) {x : List Byte} {s t : State} (h : s.Encoded x0 x)
    (b : Byte) (rest : List Byte)
    (ht : (if (encStep b rest s).2.enc.ntok = 8 then flushOrFail (encStep b rest s).2
        else .goOn (encStep b rest s).2) = .goOn t) :
    t.Encoded x0 (x ++ (b :: rest).take (encStep b rest s).1) := by
  obtain ⟨hwe, ks, ls, hblocks, hls, hlt, hx⟩ := h
  obtain ⟨k, e, hk, hst, he⟩ := encStep_token b rest (s := s) (hwe ▸ Window.stored_writeBytes hx0 x)
  replace he := he ls hls hlt
  have hx' : x ++ (b :: rest).take (encStep b rest s).1 = x0.decode (ks ++ (ls ++ [k])) := by
    rw [← List.append_assoc, Window.decode_append, ← hx, ← hwe, ← hk]
    simp [Window.decode_cons]
  have hwe' : s.we.writeBytes ((b :: rest).take (encStep b rest s).1) =
      x0.writeBytes (x ++ (b :: rest).take (encStep b rest s).1) := by
    rw [hwe, Window.writeBytes_append]
  rw [hst] at ht
  generalize (b :: rest).take (encStep b rest s).1 = c at *
  have hcount := he.ntok_eq
  rw [List.length_append, List.length_singleton] at hcount
  split at ht
  case isTrue h8 =>
    obtain ⟨hcfg, htwe, htenc, htblocks⟩ := flushOrFail_blocks ht
    have h8' : (ls ++ [k]).length = blockTokens := by
      rw [← he.ntok_eq]
      exact congrArg BitVec.toNat h8
    refine ⟨htwe.trans hwe', ks ++ (ls ++ [k]), [], ?_, ?_, by decide, by rw [List.append_nil]; exact hx'⟩
    · rw [hcfg, htblocks, List.flatten_append, List.flatten_singleton]
      exact hblocks.append (he.wholeBlocks h8' s.cfg)
    · rw [htenc]
      exact Encoder.holds_empty rfl rfl rfl
  case isFalse h8 =>
    cases ht
    refine ⟨hwe', ks, ls ++ [k], hblocks, he, ?_, hx'⟩
    rw [← he.ntok_eq]
    refine ntok_lt_of ?_ h8
    show e.ntok.toNat ≤ 8
    simp only [blockTokens] at hlt
    omega

/-- R120: the loop of ENC_WRITE takes all of its data. -/
theorem encLoop_encoded {x0 : Window} (hx0 : x0.stored = true) (n : Nat) : ∀ {data x : List Byte} {s t : State},
    data.length ≤ n → s.Encoded x0 x → encLoop n data s = .goOn t → t.Encoded x0 (x ++ data) := by
  induction n with
  | zero =>
    intro data x s t hn h ht
    cases ht
    rwa [List.length_eq_zero_iff.1 (Nat.le_zero.1 hn), List.append_nil]
  | succ n ih =>
    intro data x s t hn h ht
    cases data with
    | nil =>
      cases ht
      rwa [List.append_nil]
    | cons b rest =>
      have hc := encStep_consumes b rest s
      rw [encLoop_succ] at ht
      cases hf : (if (encStep b rest s).2.enc.ntok = 8 then flushOrFail (encStep b rest s).2
        else Flow.goOn (encStep b rest s).2) with
      | ended u => rw [hf] at ht; cases ht
      | goOn u =>
        rw [hf, Flow.andThen_goOn] at ht
        rw [List.length_cons] at hn
        have := ih (by rw [List.length_drop, List.length_cons]; omega) (encTurn_encoded hx0 h b rest hf) ht
        rwa [List.append_assoc, List.take_append_drop] at this

/-- An open Encoder whose sink accepts the next `n` writes, with what it has taken. -/
structure State.Encoding (x0 : Window) (x : List Byte) (n : Nat) (s : State) : Prop where
  st_ok : s.enc.st = .ok
  accepts : s.sink.accepts n
  encoded : s.Encoded x0 x

/-- R120: an ENC_WRITE takes its data when the sink accepts a write for each byte. -/
theorem State.Encoding.write {x0 : Window} (hx0 : x0.stored = true) {x data : List Byte} {n : Nat} {s : State}
    (h : s.Encoding x0 x (data.length + n)) {len : BitVec 16} (hlen : data.length = len.toNat) :
    ∃ t, execEncWrite len data s = .next t ∧ t.cfg = s.cfg ∧ t.Encoding x0 (x ++ data) n := by
  obtain ⟨ho, hacc, henc⟩ := h
  have hrun := encLoop_run data.length data s (le_refl _)
  simp only [execEncWrite, hlen, ho, ne_eq, not_true_eq_false, if_false]
  rw [← hlen]
  cases hf : encLoop data.length data s with
  | goOn t =>
    have henc' := encLoop_encoded hx0 _ (le_refl _) henc hf
    rw [hf] at hrun
    cases hrun with
    | done e k blocks hst hbl _ hacc' =>
      exact ⟨_, rfl, rfl, hst.trans ho, hacc' n hacc, henc'.we_eq, henc'.tokens⟩
  | ended t =>
    rw [hf] at hrun
    cases hrun with
    | failed m e k blocks err _ _ _ _ hno => exact absurd (Sink.accepts_mono hacc (by omega)) hno

/-- ENC_CLOSE leaves on the sink a stream of what the Encoder has taken (R127). -/
theorem State.Encoding.close {x0 : Window} {x : List Byte} {s : State} (h : s.Encoding x0 x 1) :
    ∃ u, execEncClose s = .next u ∧ u.enc.st = .closed ∧ u.we = x0.writeBytes x ∧
      ∃ ks, WireStream s.cfg 1 u.sink.blocks.flatten ks ∧ x = x0.decode ks := by
  obtain ⟨ho, hacc, hwe, ks, ls, hblocks, hls, hlt, hx⟩ := h
  simp only [execEncClose, ho, ne_eq, not_true_eq_false, if_false]
  split
  case isTrue h0 =>
    have ha : s.sink.answer s.block = .ok := Sink.accepts_answer hacc s.block
    rw [flushOrFail_ok ha]
    refine ⟨_, rfl, rfl, hwe, ks ++ ls, ?_, hx⟩
    show WireStream s.cfg 1 (s.sink.after s.block).blocks.flatten _
    rw [Sink.after_blocks_ok ha, List.flatten_append, List.flatten_singleton]
    refine hblocks _ _ ?_
    have := hls.stream hlt.le (WireStream.done (cfg := s.cfg) _)
    rwa [List.append_nil, List.append_nil] at this
  case isFalse h0 =>
    refine ⟨_, rfl, rfl, hwe, ks, ?_, ?_⟩
    · have := hblocks [] [] (.done 1)
      rwa [List.append_nil, List.append_nil] at this
    · have : ls = [] := by
        apply List.length_eq_zero_iff.1
        rw [← hls.ntok_eq]
        simpa [BitVec.lt_def] using h0
      rw [hx, this, List.append_nil]

/-- R131: the writes of all chunks and the close. -/
theorem State.Encoding.encodeAll {x0 : Window} (hx0 : x0.stored = true) (chunks : List (List Byte)) {x : List Byte}
    {s : State} (hc : ∀ c ∈ chunks, c.length < 65536) (h : s.Encoding x0 x (chunks.flatten.length + 1)) :
    ∃ u, encodeAll chunks s = .next u ∧ u.enc.st = .closed ∧ u.we = x0.writeBytes (x ++ chunks.flatten) ∧
      ∃ ks, WireStream s.cfg 1 u.sink.blocks.flatten ks ∧ x ++ chunks.flatten = x0.decode ks := by
  induction chunks generalizing x s with
  | nil =>
    obtain ⟨u, hu, hrest⟩ := h.close
    rw [List.flatten_nil, List.append_nil]
    exact ⟨u, by rw [Machine.encodeAll, exec_encClose, hu], hrest⟩
  | cons c cs ih =>
    rw [List.flatten_cons, List.length_append, Nat.add_assoc] at h
    have hlen : c.length = (BitVec.ofNat 16 c.length).toNat := (Nat.mod_eq_of_lt (hc c List.mem_cons_self)).symm
    obtain ⟨t, ht, hcfg, henc⟩ := h.write hx0 hlen
    obtain ⟨u, hu, hrest⟩ := ih (fun c' hmem => hc c' (List.mem_cons_of_mem _ hmem)) henc
    rw [hcfg, List.append_assoc] at hrest
    rw [List.flatten_cons]
    refine ⟨u, ?_, hrest⟩
    simp only [Machine.encodeAll, exec_encWrite, ht, hu]

theorem State.encoding_fresh {s : State} {n : Nat} (hf : s.enc.fresh) (hb : s.sink.blocks = [])
    (ha : s.sink.accepts n) : s.Encoding s.we [] n := by
  obtain ⟨hst, hflags, hntok, hstage⟩ := hf
  refine ⟨hst, ha, rfl, [], [], ?_, Encoder.holds_empty hflags hntok hstage, by decide, rfl⟩
  rw [hb]
  exact wholeBlocks_nil s.cfg

/-- Settles O51: the Encoder leaves a stream of tokens that stand for its input, and the Decoder delivers what the
tokens of its stream stand for. -/
theorem decoderOfEncoderIsTheInput : Obligations.DecoderOfEncoderIsTheInput := by
  intro chunks s hlen hfresh hstored hblocks haccepts
  obtain ⟨u, hu, hst, hwe, ks, hks, hx⟩ :=
    (State.encoding_fresh hfresh hblocks haccepts).encodeAll hstored chunks hlen
  rw [List.nil_append] at hwe hx
  refine ⟨u, hu, hst, fun caps d hcfg hwd hdec hsource => ?_⟩
  obtain ⟨hdst, hfreg, hcarry⟩ := hdec
  have hdel : d.Delivers chunks.flatten u.we :=
    .inl ⟨hdst, _, ks, hsource, by rw [hcfg, hfreg]; exact hks, by rw [hcarry, hwd, hx]; rfl, by rw [hwd, hwe, hx]⟩
  obtain ⟨v, rs, hv, hres, hout, hend⟩ := hdel.readAll caps
  exact ⟨v, rs, hv, hres, hout, fun hlt => ⟨(hend (.inr hlt)).st_end, (hend (.inr hlt)).wd_eq⟩⟩

end Sys2Proof.Machine
end

section
/-! SUPPORT. Proofs of the state family (10_state.md): the values after power-up (R41), and what every step keeps (R23
to R32, R37, R172, R176). What a step does is said once, by its effect on the two units; each statement about every
step is a case analysis on that effect. -/

namespace Sys2Proof.Machine

open Sys2Proof

/-! ### After reset (R41, R191, R192) -/

theorem Encoder.inv_reset (info : ErrCode) : (Encoder.reset info).Inv := Encoder.inv_emptied (Encoder.reset info)

theorem Decoder.inv_reset (info : ErrCode) : (Decoder.reset info).Inv :=
  ⟨⟨0, 0, by decide, by decide, rfl⟩, Nat.zero_le _, fun _ => rfl⟩

/-- Settles O10: each is the value `State.reset` is written with, an empty storage reading 0x00 everywhere. -/
theorem powerUpStateHasTheResetValues : Obligations.PowerUpStateHasTheResetValues :=
  ⟨fun _ => rfl, fun _ => rfl, rfl, rfl, rfl, rfl, rfl, rfl, rfl, rfl, rfl, rfl, rfl, rfl, rfl⟩

/-- Settles O48, part by part: each unit and each Window meets its part of the invariant after reset. -/
theorem powerUpStateIsInvariant : Obligations.PowerUpStateIsInvariant where
  we := Window.inv_reset 0
  wd := Window.inv_reset 0
  enc := Encoder.inv_reset _
  dec := Decoder.inv_reset _
  read := rfl

/-! ### The flag register (R30, R147) -/

/-- Settles O32: the sentinel, loaded at bit 8, is at bit `8 - k` after `k` shifts, and the register is 1 when that is
bit 0. -/
theorem eightShiftsReturnToNeedFlags : Obligations.EightShiftsReturnToNeedFlags := by
  intro cfg f k hk
  refine ⟨fun h => ?_, fun h => h ▸ loadedFlags_shift_eight cfg f⟩
  have hbit : (1 : BitVec 9).getLsbD (8 - k) = true := by
    rw [← h, BitVec.getLsbD_ushiftRight, Nat.add_sub_cancel' hk, loadedFlags_sentinel]
  have h0 : 8 - k = 0 := by simpa [BitVec.getLsbD_one] using hbit
  omega

/-! ### The effect of a step on the two units -/

/-- What a step that answers next does to the registers: nothing but bytes written to the Windows (a Window operation,
an illegal word, a sticky answer, no event), a command of an open unit, DEC_CLOSE, or a reset of one unit. -/
inductive StepEffect (s t : State) : Prop
  | windows (cfg : t.cfg = s.cfg) (enc : t.enc = s.enc) (sink : t.sink = s.sink) (dec : t.dec = s.dec)
      (source : t.source = s.source) (read : t.read = s.read) (bs bs' : List Byte)
      (we : t.we = s.we.writeBytes bs) (wd : t.wd = s.wd.writeBytes bs')
  | encCommand (isOpen : s.enc.st = .ok) (cfg : t.cfg = s.cfg) (decSide : s.sameDecoder t)
      (we : s.we.Inv s.cfg.p0 → t.we.Inv s.cfg.p0) (enc : s.enc.Inv → t.enc.Inv)
  | decRead (isOpen : s.dec.st = .ok) (cfg : t.cfg = s.cfg) (encSide : s.sameEncoder t) (bs : List Byte)
      (wd : t.wd = s.wd.writeBytes bs) (dec : s.dec.Inv → t.dec.Inv) (read : t.read = .idle)
  | decClose (live : s.dec.st.terminal = false) (cfg : t.cfg = s.cfg) (encSide : s.sameEncoder t) (wd : t.wd = s.wd)
      (dec : t.dec = { s.dec with st := .closed, carry := [] }) (source : t.source = s.source) (read : t.read = s.read)
  | encReset (answers : List SinkAnswer) (u : State) (fetch : s.fetch = (.encReset answers, u)) (cfg : t.cfg = s.cfg)
      (decSide : s.sameDecoder t) (we : t.we = Window.reset s.cfg.p0) (info : ErrCode)
      (enc : t.enc = Encoder.reset info)
  | decReset (answers : List SourceAnswer) (u : State) (fetch : s.fetch = (.decReset answers, u)) (cfg : t.cfg = s.cfg)
      (encSide : s.sameEncoder t) (wd : t.wd = Window.reset s.cfg.p0) (info : ErrCode)
      (dec : t.dec = Decoder.reset info) (read : t.read = s.read)

/-- A command that is only answered: an illegal word, or one to a unit that is not open (R172, R185). -/
theorem StepEffect.answered (s : State) (p : HostPort) (r : Response) : StepEffect s ((s.setPort p).answered r) :=
  .windows rfl rfl rfl rfl rfl rfl [] [] rfl rfl

/-- The effect of a command, taken from the host's port. -/
theorem StepEffect.command {s t : State} {p : HostPort} {w : BitVec 32} {data : List Byte}
    (h : exec (decodeCmd w data) (s.setPort p) = .next t) : StepEffect s t := by
  have hk := cmd_kind w data (s.setPort p)
  generalize exec (decodeCmd w data) (s.setPort p) = o at h hk
  cases hk with
  | ew n data =>
    obtain ⟨_, ⟨_, rfl⟩ | ⟨ho, e, k, r, x, rfl, hx, he⟩⟩ := encWrite_cases h
    · exact .answered s p _
    · exact .encCommand ho rfl ⟨rfl, rfl, rfl, rfl, rfl⟩ hx he
  | ec =>
    obtain ⟨_, rfl⟩ | ⟨ho, e, k, r, rfl, he⟩ := encClose_cases h
    · exact .answered s p _
    · exact .encCommand ho rfl ⟨rfl, rfl, rfl, rfl, rfl⟩ id he
  | dr cap =>
    obtain ⟨_, rfl⟩ | ⟨ho, d, r, bs, rsp, rfl, hd⟩ := decRead_cases h
    · exact .answered s p _
    · exact .decRead ho rfl ⟨rfl, rfl, rfl, rfl⟩ bs rfl hd rfl
  | dc =>
    obtain ⟨_, rfl⟩ | ⟨hl, rfl⟩ := decClose_cases h
    · exact .answered s p _
    · exact .decClose hl rfl ⟨rfl, rfl, rfl, rfl⟩ rfl rfl rfl rfl
  | ill r =>
    cases h
    exact .answered s p r

/-- Every step that answers next has one of these effects. -/
theorem step_effect {s t : State} (h : step s = .next t) : StepEffect s t := by
  have hk := step_kind s
  generalize step s = o at h hk
  cases hk with
  | win x r u hcfg hwe hwd henc hdec hsink hsource hread _ =>
    cases winop_kind h with
    | same p q ht =>
      subst ht
      exact .windows hcfg henc hsink hdec hsource hread [] [] hwe hwd
    | we p q bs ht =>
      subst ht
      exact .windows hcfg henc hsink hdec hsource hread bs [] (congrArg (·.writeBytes bs) hwe) hwd
    | wd p q bs ht =>
      subst ht
      exact .windows hcfg henc hsink hdec hsource hread [] bs hwe (congrArg (·.writeBytes bs) hwd)
  | cmd w data rest _ => exact .command h
  | er answers u hf hd _ hcfg =>
    cases h
    exact .encReset answers u hf hcfg hd (congrArg (fun c : Config => Window.reset c.p0) hcfg) _ rfl
  | dr answers u hf hd he hcfg =>
    obtain ⟨_, _, _, _, hread⟩ := hd
    cases h
    exact .decReset answers u hf hcfg he (congrArg (fun c : Config => Window.reset c.p0) hcfg) _ rfl hread
  | idle =>
    cases h
    exact .windows rfl rfl rfl rfl rfl rfl [] [] rfl rfl

/-! ### What every step keeps -/

/-- Settles O47: no effect of a step reaches the configuration. -/
theorem configurationNeverChanges : Obligations.ConfigurationNeverChanges := by
  intro s t h
  cases step_effect h with
  | windows cfg | encCommand _ cfg | decRead _ cfg | decClose _ cfg | encReset _ _ _ cfg | decReset _ _ _ cfg =>
    exact cfg

/-- R24, R172, R176: an Encoder that is not open keeps its registers and its sink until its reset. -/
theorem StepEffect.closed_encoder {s t : State} (h : StepEffect s t) (hst : s.enc.st ≠ .ok)
    (hf : ∀ answers u, s.fetch ≠ (.encReset answers, u)) : t.enc = s.enc ∧ t.sink = s.sink := by
  cases h with
  | windows _ enc sink => exact ⟨enc, sink⟩
  | encCommand isOpen => exact absurd isOpen hst
  | decRead _ _ encSide | decClose _ _ encSide | decReset _ _ _ _ encSide =>
    obtain ⟨_, _, henc, hsink⟩ := encSide
    exact ⟨henc, hsink⟩
  | encReset answers u fetch => exact absurd fetch (hf answers u)

/-- R29, R172, R176: a Decoder that is not open keeps its registers and its source until its reset, but for DEC_CLOSE,
which leaves it CLOSED and the source alone when it is in no terminal state. -/
theorem StepEffect.closed_decoder {s t : State} (h : StepEffect s t) (hst : s.dec.st ≠ .ok)
    (hf : ∀ answers u, s.fetch ≠ (.decReset answers, u)) :
    t.source = s.source ∧ (t.dec = s.dec ∨ (s.dec.st.terminal = false ∧ t.dec.st = .closed)) := by
  cases h with
  | windows _ _ _ dec source => exact ⟨source, .inl dec⟩
  | decRead isOpen => exact absurd isOpen hst
  | decClose live _ _ _ dec source => exact ⟨source, .inr ⟨live, by rw [dec]⟩⟩
  | encCommand _ _ decSide | encReset _ _ _ _ decSide =>
    obtain ⟨_, _, hdec, hsource, _⟩ := decSide
    exact ⟨hsource, .inl hdec⟩
  | decReset answers u fetch => exact absurd fetch (hf answers u)

/-- Settles O43: of a unit that is not open, the effects of a step leave only DEC_CLOSE at END and the unit's reset. -/
theorem onlyResetLeavesATerminalState : Obligations.OnlyResetLeavesATerminalState := by
  intro s t h
  have he := step_effect h
  refine ⟨he.closed_encoder, fun hterm hf => ?_, fun hend hf => ?_⟩
  · have hst : s.dec.st ≠ .ok := fun ho => by simp [ho, DecStatus.terminal] at hterm
    obtain ⟨hsource, hdec | ⟨hlive, _⟩⟩ := he.closed_decoder hst hf
    · exact ⟨hdec, hsource⟩
    · simp [hterm] at hlive
  · obtain ⟨hsource, hdec | ⟨_, hclosed⟩⟩ := he.closed_decoder (by simp [hend]) hf
    · exact ⟨hsource, .inl (hdec ▸ hend)⟩
    · exact ⟨hsource, .inr hclosed⟩

/-- DEC_CLOSE keeps the flag register's sentinel and leaves no carry (R32, R151). -/
theorem Decoder.Inv.close {d : Decoder} (h : d.Inv) : ({ d with st := .closed, carry := [] } : Decoder).Inv :=
  ⟨h.sentinel, Nat.zero_le _, fun _ => rfl⟩

/-- The Encoder's part of the invariant, where a step leaves the Encoder's side alone. -/
theorem State.Inv.encoder_of_same {s t : State} (hs : s.Inv) (hcfg : t.cfg = s.cfg) (h : s.sameEncoder t) :
    t.we.Inv t.cfg.p0 ∧ t.enc.Inv := by
  obtain ⟨hwe, _, henc, _⟩ := h
  rw [hcfg, hwe, henc]
  exact ⟨hs.we, hs.enc⟩

/-- The Decoder's part of the invariant, where a step leaves the Decoder's side alone. -/
theorem State.Inv.decoder_of_same {s t : State} (hs : s.Inv) (hcfg : t.cfg = s.cfg) (h : s.sameDecoder t) :
    t.wd.Inv t.cfg.p0 ∧ t.dec.Inv ∧ t.read = .idle := by
  obtain ⟨hwd, _, hdec, _, hread⟩ := h
  rw [hcfg, hwd, hdec, hread]
  exact ⟨hs.wd, hs.dec, hs.read⟩

/-- Every effect keeps the invariant: a unit left alone keeps its part, a write to a Window keeps R23, a command keeps
its unit's registers consistent, and a reset meets the invariant by itself. -/
theorem StepEffect.inv {s t : State} (h : StepEffect s t) (hs : s.Inv) : t.Inv := by
  cases h with
  | windows cfg enc _ dec _ read bs bs' we wd =>
    exact ⟨by rw [cfg, we]; exact Window.inv_writeBytes hs.we bs,
      by rw [cfg, wd]; exact Window.inv_writeBytes hs.wd bs', enc ▸ hs.enc, dec ▸ hs.dec, read.trans hs.read⟩
  | encCommand _ cfg decSide we enc =>
    obtain ⟨hwd, hdec, hread⟩ := hs.decoder_of_same cfg decSide
    exact ⟨by rw [cfg]; exact we hs.we, hwd, enc hs.enc, hdec, hread⟩
  | decRead _ cfg encSide bs wd dec read =>
    obtain ⟨hwe, henc⟩ := hs.encoder_of_same cfg encSide
    exact ⟨hwe, by rw [cfg, wd]; exact Window.inv_writeBytes hs.wd bs, henc, dec hs.dec, read⟩
  | decClose _ cfg encSide wd dec _ read =>
    obtain ⟨hwe, henc⟩ := hs.encoder_of_same cfg encSide
    exact ⟨hwe, by rw [cfg, wd]; exact hs.wd, henc, dec ▸ hs.dec.close, read.trans hs.read⟩
  | encReset _ _ _ cfg decSide we info enc =>
    obtain ⟨hwd, hdec, hread⟩ := hs.decoder_of_same cfg decSide
    exact ⟨by rw [cfg, we]; exact Window.inv_reset _, hwd, enc ▸ Encoder.inv_reset info, hdec, hread⟩
  | decReset _ _ _ cfg encSide wd info dec read =>
    obtain ⟨hwe, henc⟩ := hs.encoder_of_same cfg encSide
    exact ⟨hwe, by rw [cfg, wd]; exact Window.inv_reset _, henc, dec ▸ Decoder.inv_reset info, read.trans hs.read⟩

/-- Settles O49, from the effect of the step. -/
theorem everyStepKeepsTheInvariant : Obligations.EveryStepKeepsTheInvariant :=
  fun _ _ hs h => (step_effect h).inv hs

end Sys2Proof.Machine
end

section
/-! SUPPORT. Proofs of the memory family (20_memory.md): the two units share no storage (R65, R181). A command of one
unit is run with its unit's side fixed and the rest of the machine, the other unit's side and the host's port, left
open; whatever the rest is, the command leaves the same side of its unit and appends the same response. -/

namespace Sys2Proof.Machine

open Sys2Proof

/-! ### The machine, put together from the sides of two states -/

/-- The configuration and the Encoder's side of `s`, beside the Decoder's side and the host's port of `d`. -/
def State.withDecoderOf (s d : State) : State :=
  { s with wd := d.wd, wdPort := d.wdPort, dec := d.dec, source := d.source, read := d.read, port := d.port }

/-- The configuration and the Decoder's side of `s`, beside the Encoder's side and the host's port of `e`. -/
def State.withEncoderOf (s e : State) : State :=
  { s with we := e.we, wePort := e.wePort, enc := e.enc, sink := e.sink, port := e.port }

@[simp] theorem State.withDecoderOf_we (s d : State) : (s.withDecoderOf d).we = s.we := rfl
@[simp] theorem State.withDecoderOf_enc (s d : State) : (s.withDecoderOf d).enc = s.enc := rfl
@[simp] theorem State.withEncoderOf_dec (s e : State) : (s.withEncoderOf e).dec = s.dec := rfl

/-- States that agree on the Encoder's side differ in what `withDecoderOf` replaces. -/
theorem State.sameEncoder.withDecoderOf_eq {s s' : State} (h : s.sameEncoder s') (hcfg : s'.cfg = s.cfg) :
    s.withDecoderOf s' = s' := by
  obtain ⟨hwe, hport, henc, hsink⟩ := h
  simp only [State.withDecoderOf, ← hcfg, ← hwe, ← hport, ← henc, ← hsink]

/-- States that agree on the Decoder's side differ in what `withEncoderOf` replaces. -/
theorem State.sameDecoder.withEncoderOf_eq {s s' : State} (h : s.sameDecoder s') (hcfg : s'.cfg = s.cfg) :
    s.withEncoderOf s' = s' := by
  obtain ⟨hwd, hport, hdec, hsource, hread⟩ := h
  simp only [State.withEncoderOf, ← hcfg, ← hwd, ← hport, ← hdec, ← hsource, ← hread]

/-! ### The Encoder beside any Decoder -/

/-- A part of an Encoder command, run beside each Decoder's side `d`: it leaves one and the same Encoder's side beside
each, and goes on beside all of them, or ends with one and the same response beside all of them. -/
inductive RunsBesideAnyDecoder (run : State → Flow) : Prop
  | goOn (x : State) : (∀ d, run d = .goOn (x.withDecoderOf d)) → RunsBesideAnyDecoder run
  | ended (x : State) (r : Response) : (∀ d, run d = .ended ((x.withDecoderOf d).respond r)) →
      RunsBesideAnyDecoder run

theorem RunsBesideAnyDecoder.andThen {run next : State → Flow} (h : RunsBesideAnyDecoder run)
    (hnext : ∀ x : State, RunsBesideAnyDecoder fun d => next (x.withDecoderOf d)) :
    RunsBesideAnyDecoder fun d => (run d).andThen next := by
  cases h with
  | goOn x hx => simpa only [hx, Flow.andThen_goOn] using hnext x
  | ended x r hx => exact .ended x r fun d => by rw [hx, Flow.andThen_ended]

theorem RunsBesideAnyDecoder.finish {run : State → Flow} {last : State → State} (h : RunsBesideAnyDecoder run)
    (hlast : ∀ x : State, ∃ (y : State) (r : Response), ∀ d,
      last (x.withDecoderOf d) = (y.withDecoderOf d).respond r) :
    ∃ (y : State) (r : Response), ∀ d, (run d).finish last = (y.withDecoderOf d).respond r := by
  cases h with
  | goOn x hx => simpa only [hx, Flow.finish_goOn] using hlast x
  | ended x r hx => exact ⟨x, r, fun d => by rw [hx, Flow.finish_ended]⟩

/-- R125, R128: the block is made of the Encoder's registers, and the sink alone answers it. -/
theorem flushOrFail_besideAnyDecoder (s : State) :
    RunsBesideAnyDecoder fun d => flushOrFail (s.withDecoderOf d) := by
  cases ha : s.sink.answer s.block with
  | ok =>
    exact .goOn ((s.setSink (s.sink.after s.block)).setEnc s.enc.emptied)
      fun d => flushOrFail_ok (s := s.withDecoderOf d) ha
  | err e =>
    exact .ended ((s.setSink (s.sink.after s.block)).setEnc { s.enc with st := .sinkErr, info := e }) _
      fun d => flushOrFail_err (s := s.withDecoderOf d) ha

/-- R120, R127: a flush under a condition on the Encoder. -/
theorem flushIf_besideAnyDecoder (c : Prop) [Decidable c] (s : State) :
    RunsBesideAnyDecoder fun d => if c then flushOrFail (s.withDecoderOf d) else .goOn (s.withDecoderOf d) := by
  split
  · exact flushOrFail_besideAnyDecoder s
  · exact .goOn s fun _ => rfl

/-- R121: a token decision looks into `WE` and writes `WE` and the block. -/
theorem encStep_withDecoderOf (b : Byte) (rest : List Byte) (s d : State) :
    encStep b rest (s.withDecoderOf d) = ((encStep b rest s).1, (encStep b rest s).2.withDecoderOf d) := by
  by_cases h : (s.we.find ((b :: rest).take maxLen)).len < minLen
  · simp only [encStep, State.withDecoderOf_we, h, if_true]
    rfl
  · simp only [encStep, State.withDecoderOf_we, h, if_false]
    rfl

theorem encLoop_besideAnyDecoder (n : Nat) : ∀ (data : List Byte) (s : State),
    RunsBesideAnyDecoder fun d => encLoop n data (s.withDecoderOf d) := by
  induction n with
  | zero => exact fun _ s => .goOn s fun _ => rfl
  | succ n ih =>
    intro data s
    cases data with
    | nil => exact .goOn s fun _ => rfl
    | cons b rest =>
      simp only [encLoop_succ, encStep_withDecoderOf, State.withDecoderOf_enc]
      exact (flushIf_besideAnyDecoder _ _).andThen (ih _)

/-- The Encoder command `run`, from the Encoder's side of `s` beside each Decoder's side: it answers, with one and the
same response beside each, and leaves one and the same Encoder's side; the Decoder's side stands as it was. -/
def AnswersBesideAnyDecoder (run : State → Host.Outcome State Fault Refusal) (s : State) : Prop :=
  ∃ (x : State) (r : Response), ∀ d, run (s.withDecoderOf d) = .next ((x.withDecoderOf d).respond r)

/-- ENC_WRITE beside any Decoder (R120, R172). -/
theorem execEncWrite_besideAnyDecoder {n : BitVec 16} {data : List Byte} (hl : data.length = n.toNat) (s : State) :
    AnswersBesideAnyDecoder (execEncWrite n data) s := by
  by_cases ho : s.enc.st = .ok
  · obtain ⟨x, r, hx⟩ := (encLoop_besideAnyDecoder data.length data s).finish
      (last := fun t => t.respond { status := .ok, count := n, out := [], info := none }) fun x => ⟨x, _, fun _ => rfl⟩
    refine ⟨x, r, fun d => ?_⟩
    rw [execEncWrite, if_neg (by simp [hl]), if_neg (by simp [ho])]
    exact congrArg _ (hx d)
  · exact ⟨s, s.enc.sticky, fun d => by simp [execEncWrite, hl, ho]⟩

/-- ENC_CLOSE beside any Decoder (R127, R172). -/
theorem execEncClose_besideAnyDecoder (s : State) : AnswersBesideAnyDecoder execEncClose s := by
  by_cases ho : s.enc.st = .ok
  · obtain ⟨x, r, hx⟩ := (flushIf_besideAnyDecoder (0 < s.enc.ntok) s).finish
      (last := fun t => (t.setEnc { t.enc with st := .closed }).respond (Response.plain .ok))
      fun x => ⟨x.setEnc { x.enc with st := .closed }, _, fun _ => rfl⟩
    refine ⟨x, r, fun d => ?_⟩
    rw [execEncClose, if_neg (by simp [ho])]
    exact congrArg _ (hx d)
  · exact ⟨s, s.enc.sticky, fun d => by simp [execEncClose, ho]⟩

/-- Settles O45: both states are the Encoder's side of the first beside a Decoder's side, their own. -/
theorem encoderDoesNotSeeTheDecoder : Obligations.EncoderDoesNotSeeTheDecoder := by
  intro i s s' t hi hsame hcfg ht
  obtain ⟨x, r, hx⟩ : AnswersBesideAnyDecoder (exec i) s := by
    rcases hi with rfl | ⟨n, data, rfl⟩
    · exact execEncClose_besideAnyDecoder s
    · exact execEncWrite_besideAnyDecoder (encWrite_cases ht).1 s
  have hs' := hx s'
  rw [hsame.withDecoderOf_eq hcfg] at hs'
  cases ht.symm.trans (hx s)
  exact ⟨⟨rfl, rfl, rfl, rfl, rfl⟩, _, r, hs', ⟨rfl, rfl, rfl, rfl⟩, ⟨rfl, rfl, rfl, rfl, rfl⟩, rfl, rfl⟩

/-! ### The Decoder beside any Encoder -/

/-- The Decoder command `run`, from the Decoder's side of `s` beside each Encoder's side: it answers, with one and the
same response beside each, and leaves one and the same Decoder's side; the Encoder's side stands as it was. -/
def AnswersBesideAnyEncoder (run : State → Host.Outcome State Fault Refusal) (s : State) : Prop :=
  ∃ (x : State) (r : Response), ∀ e, run (s.withEncoderOf e) = .next ((x.withEncoderOf e).respond r)

/-- R38, R77: a read's response is made of its output. -/
theorem respondRead_besideAnyEncoder (s : State) (st : Status) (info : Option ErrCode) :
    ∃ (x : State) (r : Response), ∀ e, (s.withEncoderOf e).respondRead st info = (x.withEncoderOf e).respond r :=
  ⟨s.setRead .idle, { status := st, count := BitVec.ofNat 16 s.read.out.length, out := s.read.out, info := info },
    fun _ => rfl⟩

/-- A DEC_READ ends, at its capacity or at the source (R140, R148, R149), with the Decoder's registers set and an
answer made of them. -/
theorem endRead_besideAnyEncoder (s : State) {stop : Option Failure}
    (hstop : ∀ f, stop = some f → f = .endOfSource ∨ ∃ e, f = .source e) :
    ∃ (x : State) (r : Response), ∀ e, (s.withEncoderOf e).endRead stop = (x.withEncoderOf e).respond r := by
  cases stop with
  | none => exact respondRead_besideAnyEncoder s .ok none
  | some f =>
    rcases hstop f rfl with rfl | ⟨err, rfl⟩
    · exact respondRead_besideAnyEncoder (s.setDec { s.dec with st := .endOfStream }) .endOfStream none
    · exact respondRead_besideAnyEncoder (s.setDec { s.dec with st := .sourceErr, info := err }) .sourceErr (some err)

/-- DEC_READ beside any Encoder (R140, R172): its turns are pulled from the Decoder's side. -/
theorem execDecRead_besideAnyEncoder (cap : BitVec 16) (s : State) :
    AnswersBesideAnyEncoder (execDecRead cap) s := by
  by_cases ho : s.dec.st = .ok
  · obtain ⟨-, hstop, -⟩ :=
      pull_spec s.cfg cap.toNat (cap.toNat - s.dec.carry.length) s.dec.freg s.wd s.source (Nat.sub_le _ _)
    obtain ⟨x, r, hx⟩ := endRead_besideAnyEncoder (s.afterPull cap.toNat (s.pulled cap.toNat))
      fun f hf => (hstop f hf).2
    exact ⟨x, r, fun e => (execDecRead_open cap (s.withEncoderOf e) ho).trans (congrArg _ (hx e))⟩
  · exact ⟨s, s.dec.sticky, fun e => by simp [execDecRead, ho]⟩

/-- DEC_CLOSE beside any Encoder (R151, R172). -/
theorem execDecClose_besideAnyEncoder (s : State) : AnswersBesideAnyEncoder execDecClose s := by
  by_cases ht : s.dec.st.terminal = true
  · exact ⟨s, s.dec.sticky, fun e => by simp [execDecClose, ht]⟩
  · exact ⟨s.setDec { s.dec with st := .closed, carry := [] }, Response.plain .ok,
      fun e => by simp [execDecClose, ht]; rfl⟩

/-- Settles O46: both states are the Decoder's side of the first beside an Encoder's side, their own. -/
theorem decoderDoesNotSeeTheEncoder : Obligations.DecoderDoesNotSeeTheEncoder := by
  intro i s s' t hi hsame hcfg ht
  obtain ⟨x, r, hx⟩ : AnswersBesideAnyEncoder (exec i) s := by
    rcases hi with rfl | ⟨cap, rfl⟩
    · exact execDecClose_besideAnyEncoder s
    · exact execDecRead_besideAnyEncoder cap s
  have hs' := hx s'
  rw [hsame.withEncoderOf_eq hcfg] at hs'
  cases ht.symm.trans (hx s)
  exact ⟨⟨rfl, rfl, rfl, rfl⟩, _, r, hs', ⟨rfl, rfl, rfl, rfl, rfl⟩, ⟨rfl, rfl, rfl, rfl⟩, rfl, rfl⟩

end Sys2Proof.Machine
end

section
/-! SUPPORT. Proofs of the encoding family (30_encoding.md): the fields of the command word (R76), of the RSP word (R77)
and of a MATCH (R74), each by value; what a command word decodes to (R78, R80), said once; the wire units as DEC_READ
runs them (R71 to R75); and the length of a block on the sink (R83). -/

namespace Sys2Proof.Machine

open Sys2Proof

/-! ### The fields of the command word (R76) -/

@[simp] theorem cmdN_cmdWord (n : BitVec 16) (rsv : BitVec 12) (op : BitVec 4) : cmdN (cmdWord n rsv op) = n :=
  (Laws.cmdWord_fields n rsv op).1

@[simp] theorem cmdRsv_cmdWord (n : BitVec 16) (rsv : BitVec 12) (op : BitVec 4) : cmdRsv (cmdWord n rsv op) = rsv :=
  (Laws.cmdWord_fields n rsv op).2.1

@[simp] theorem cmdOp_cmdWord (n : BitVec 16) (rsv : BitVec 12) (op : BitVec 4) : cmdOp (cmdWord n rsv op) = op :=
  (Laws.cmdWord_fields n rsv op).2.2

/-- No bit of a command word is outside its three fields. -/
theorem cmdWord_of_fields {w : BitVec 32} {n : BitVec 16} {rsv : BitVec 12} {op : BitVec 4} (hn : cmdN w = n)
    (hr : cmdRsv w = rsv) (ho : cmdOp w = op) : cmdWord n rsv op = w := by
  have hhigh : cmdN w ++ cmdRsv w = w.extractLsb' 4 28 := BitVec.extractLsb'_append_extractLsb'_eq_extractLsb' rfl
  rw [← hn, ← hr, ← ho, cmdWord, hhigh]
  exact BitVec.extractLsb'_append_extractLsb'

theorem cmdRsv_toNat (w : BitVec 32) : (cmdRsv w).toNat = w.toNat / 16 % 4096 := by
  simp [cmdRsv, BitVec.extractLsb'_toNat, Nat.shiftRight_eq_div_pow]

theorem cmdOp_toNat (w : BitVec 32) : (cmdOp w).toNat = w.toNat % 16 := by
  simp [cmdOp, BitVec.extractLsb'_toNat]

/-- The low half of an ENC_WRITE word is 0x0001 (R78), and of no other word. -/
theorem encWriteWord_iff (w : BitVec 32) : w.toNat % 65536 = 1 ↔ cmdRsv w = 0 ∧ cmdOp w = 1 := by
  refine ⟨fun h => ?_, fun ⟨hr, ho⟩ => encWriteWord_toNat hr ho⟩
  simp only [BitVec.toNat_eq, cmdRsv_toNat, cmdOp_toNat, BitVec.ofNat_eq_ofNat, BitVec.toNat_ofNat]
  omega

theorem isIllegal_iff (n : BitVec 16) (rsv : BitVec 12) (op : BitVec 4) :
    isIllegal n rsv op = true ↔
      rsv ≠ 0 ∨ ¬ (op = 1 ∨ op = 2 ∨ op = 3 ∨ op = 4) ∨ ((op = 2 ∨ op = 4) ∧ n ≠ 0) := by
  simp only [isIllegal, Bool.or_eq_true, Bool.and_eq_true, Bool.not_eq_true', Bool.eq_false_iff, bne_iff_ne, ne_eq,
    beq_iff_eq, or_assoc]

/-- R80, by the word's value. -/
theorem isIllegal_fields_iff (w : BitVec 32) :
    isIllegal (cmdN w) (cmdRsv w) (cmdOp w) = true ↔
      w.toNat % 16 = 0 ∨ 5 ≤ w.toNat % 16 ∨ w.toNat / 16 % 4096 ≠ 0 ∨
        ((w.toNat % 16 = 2 ∨ w.toNat % 16 = 4) ∧ w.toNat / 65536 ≠ 0) := by
  simp only [isIllegal_iff, ne_eq, BitVec.toNat_eq, cmdN_toNat, cmdRsv_toNat, cmdOp_toNat, BitVec.ofNat_eq_ofNat,
    BitVec.toNat_ofNat]
  omega

/-! ### What a command word decodes to (R78, R80) -/

/-- A command word's instruction: one of the four commands, with the fields that make it one, or ILLEGAL_CMD. -/
inductive CommandForm (w : BitVec 32) (data : List Byte) : Instr → Prop
  | encWrite (rsv : cmdRsv w = 0) (op : cmdOp w = 1) : CommandForm w data (.encWrite (cmdN w) data)
  | encClose (n : cmdN w = 0) (rsv : cmdRsv w = 0) (op : cmdOp w = 2) : CommandForm w data .encClose
  | decRead (rsv : cmdRsv w = 0) (op : cmdOp w = 3) : CommandForm w data (.decRead (cmdN w))
  | decClose (n : cmdN w = 0) (rsv : cmdRsv w = 0) (op : cmdOp w = 4) : CommandForm w data .decClose
  | illegalCmd (illegal : isIllegal (cmdN w) (cmdRsv w) (cmdOp w) = true) :
      CommandForm w data (.illegalCmd (cmdN w) (cmdRsv w) (cmdOp w))

theorem decodeCmd_form (w : BitVec 32) (data : List Byte) : CommandForm w data (decodeCmd w data) := by
  unfold decodeCmd
  split
  case isTrue h => exact .encWrite h.1 h.2
  split
  case isTrue h => exact .encClose h.2.2 h.1 h.2.1
  split
  case isTrue h => exact .decRead h.1 h.2
  split
  case isTrue h => exact .decClose h.2.2 h.1 h.2.1
  case isFalse h1 h2 h3 h4 =>
    refine .illegalCmd ((isIllegal_iff _ _ _).2 ?_)
    tauto

/-- R80, R185: an illegal word is no command, whatever data comes with it. -/
theorem decodeCmd_illegal {w : BitVec 32} (h : isIllegal (cmdN w) (cmdRsv w) (cmdOp w) = true) (data : List Byte) :
    decodeCmd w data = .illegalCmd (cmdN w) (cmdRsv w) (cmdOp w) := by
  have hf := decodeCmd_form w data
  generalize decodeCmd w data = i at hf
  cases hf with
  | encWrite hr ho | decRead hr ho => simp [isIllegal_iff, hr, ho] at h
  | encClose hn hr ho | decClose hn hr ho => simp [isIllegal_iff, hn, hr, ho] at h
  | illegalCmd => rfl

/-! ### Encoder and decoder -/

/-- Settles O1, surface by surface: a command word has the fields it was made of, a MATCH the offset and the length
(R74), and the other encodings hold their operands as they are. -/
theorem decodeOfEncodeIsTheInstruction : Obligations.DecodeOfEncodeIsTheInstruction := by
  intro i hi
  cases i with
  | encWrite | encClose | decRead | decClose => simp [encode, decode, decodeCmd]
  | illegalCmd n rsv op =>
    have h := decodeCmd_illegal (w := cmdWord n rsv op) (by simpa [Instr.wf] using hi) []
    simp only [cmdN_cmdWord, cmdRsv_cmdWord, cmdOp_cmdWord] at h
    exact congrArg _ h
  | matchTok off len =>
    obtain ⟨hlo, hhi⟩ : minLen ≤ len.toNat ∧ len.toNat ≤ maxLen := by simpa [Instr.wf] using hi
    show Except.ok (Instr.matchTok (matchOffset (matchLow off) (matchHigh off len)) _) = _
    rw [matchOffset_matchHigh off hlo hhi, matchLength_matchHigh off hlo hhi]
  | flags | lit | winFind | winRead | winWrite | winWrites => rfl

/-- Settles O2, from the forms a decoded word can have: each is encoded with the fields of the word. -/
theorem encodeOfDecodeIsTheCommandWord : Obligations.EncodeOfDecodeIsTheCommandWord := by
  intro w data
  have hf := decodeCmd_form w data
  have hdata := encWriteWord_iff w
  generalize decodeCmd w data = i at hf
  cases hf with
  | encWrite hr ho =>
    refine ⟨?_, fun hl => ?_⟩
    · rw [if_pos (hdata.2 ⟨hr, ho⟩), encode, cmdWord_of_fields rfl hr ho]
    · simpa [Instr.wf, cmdN_toNat] using hl
  | decRead hr ho =>
    rw [if_neg (by simp [hdata, ho]), encode, cmdWord_of_fields rfl hr ho]
    exact ⟨rfl, fun _ => rfl⟩
  | encClose hn hr ho | decClose hn hr ho =>
    rw [if_neg (by simp [hdata, ho]), encode, cmdWord_of_fields hn hr ho]
    exact ⟨rfl, fun _ => rfl⟩
  | illegalCmd h =>
    have hne : ¬ w.toNat % 65536 = 1 := fun hw => by
      obtain ⟨hr, ho⟩ := hdata.1 hw
      simp [isIllegal_iff, hr, ho] at h
    rw [if_neg hne, encode, cmdWord_of_fields rfl rfl rfl]
    exact ⟨rfl, fun _ => h⟩

/-! ### The fields of a MATCH, by value (R73, R74) -/

/-- The value of two fields side by side. -/
theorem append_toNat {m n : Nat} (x : BitVec m) (y : BitVec n) : (x ++ y).toNat = x.toNat * 2 ^ n + y.toNat := by
  rw [BitVec.toNat_append, ← Nat.shiftLeft_add_eq_or_of_lt y.isLt, Nat.shiftLeft_eq]

/-- The offset is four bits of the second byte over the first byte. -/
theorem matchOffset_eq_append (b0 b1 : Byte) : matchOffset b0 b1 = b1.extractLsb' 4 4 ++ b0 := by
  apply BitVec.eq_of_getLsbD_eq
  intro i hi
  simp only [matchOffset, BitVec.getLsbD_or, BitVec.getLsbD_shiftLeft, BitVec.getLsbD_setWidth,
    BitVec.getLsbD_append, hi]
  by_cases h8 : i < 8
  · simp [h8]
  · simp [h8, BitVec.getLsbD_of_ge b0 i (by omega), show i - 8 < 12 by omega]

theorem matchOffset_toNat (b0 b1 : Byte) : (matchOffset b0 b1).toNat = b1.toNat / 16 * 256 + b0.toNat := by
  have := b1.isLt
  rw [matchOffset_eq_append, append_toNat, BitVec.extractLsb'_toNat, Nat.shiftRight_eq_div_pow]
  omega

theorem matchLength_toNat (b1 : Byte) : (matchLength b1).toNat = b1.toNat % 16 + 3 := by
  simp only [matchLength, BitVec.toNat_add, BitVec.toNat_setWidth, BitVec.extractLsb'_toNat,
    BitVec.ofNat_eq_ofNat, BitVec.toNat_ofNat, Nat.shiftRight_zero]
  omega

theorem matchLow_toNat (off : Index) : (matchLow off).toNat = off.toNat % 256 := by
  have hmask : off.toNat &&& 255 = off.toNat % 256 := Nat.and_two_pow_sub_one_eq_mod _ 8
  rw [matchLow, BitVec.toNat_setWidth, BitVec.toNat_and, ← Nat.mod_mod off.toNat 256, ← hmask]
  rfl

/-- The second byte is four bits of the offset over four of length - 3. -/
theorem matchHigh_eq_append (off : Index) {len : BitVec 5} (hlo : minLen ≤ len.toNat) (hhi : len.toNat ≤ maxLen) :
    matchHigh off len = off.extractLsb' 8 4 ++ (len - 3).setWidth 4 := by
  apply BitVec.eq_of_getLsbD_eq
  intro i hi
  rw [matchHigh_bit off hlo hhi hi, BitVec.getLsbD_append]
  by_cases h4 : i < 4
  · simp [h4]
  · simp [h4, show i - 4 < 4 by omega, show 8 + (i - 4) = i + 4 by omega]

theorem matchHigh_toNat (off : Index) {len : BitVec 5} (hlo : minLen ≤ len.toNat) (hhi : len.toNat ≤ maxLen) :
    (matchHigh off len).toNat = off.toNat / 256 * 16 + (len.toNat - 3) := by
  have := off.isLt
  simp only [minLen, maxLen] at hlo hhi
  rw [matchHigh_eq_append off hlo hhi, append_toNat, BitVec.extractLsb'_toNat, Nat.shiftRight_eq_div_pow,
    BitVec.toNat_setWidth, BitVec.toNat_sub]
  simp only [BitVec.ofNat_eq_ofNat, BitVec.toNat_ofNat]
  omega

/-- Settles O3: by value the fields are quotients and remainders, inverse to each other. -/
theorem matchFieldsAreExactInverses : Obligations.MatchFieldsAreExactInverses := by
  refine ⟨fun b0 b1 => ⟨matchOffset_toNat b0 b1, matchLength_toNat b1, ?_, ?_⟩, fun off len hlo hhi =>
    ⟨matchLow_toNat off, matchHigh_toNat off hlo hhi, matchOffset_matchHigh off hlo hhi,
      matchLength_matchHigh off hlo hhi⟩⟩
  · have := b0.isLt
    apply BitVec.eq_of_toNat_eq
    rw [matchLow_toNat, matchOffset_toNat]
    omega
  · obtain ⟨hlo, hhi⟩ := matchLength_bounds b1
    have := b0.isLt
    apply BitVec.eq_of_toNat_eq
    rw [matchHigh_toNat _ hlo hhi, matchOffset_toNat, matchLength_toNat]
    omega

/-! ### Words and codes of the tables (R77, R79) -/

/-- Settles O4: each word is decoded as it stands. -/
theorem specWordsDecodeAsTheSpecSays : Obligations.SpecWordsDecodeAsTheSpecSays :=
  ⟨rfl, rfl, rfl, rfl, rfl, rfl, rfl, rfl, rfl, rfl, rfl, rfl, rfl, rfl⟩

/-- Settles O5: each is an equation of the definition. -/
theorem statusCodesAreTheTables : Obligations.StatusCodesAreTheTables :=
  ⟨rfl, rfl, rfl, rfl, rfl, rfl, rfl, rfl, rfl, rfl, rfl, rfl, rfl, rfl, rfl⟩

/-- The RSP word has the fields of a command word (R76, R77). -/
theorem responseWord_eq_cmdWord (r : Response) : r.word = cmdWord r.count 0 r.status.code := rfl

/-- Settles O6, from the fields of the word. -/
theorem responseWordHoldsStatusAndCount : Obligations.ResponseWordHoldsStatusAndCount := by
  intro r
  rw [← cmdOp_toNat, ← cmdRsv_toNat, ← cmdN_toNat, responseWord_eq_cmdWord, cmdOp_cmdWord, cmdRsv_cmdWord,
    cmdN_cmdWord]
  exact ⟨rfl, rfl, rfl⟩

/-! ### What a step takes (R81, R174) -/

/-- Settles O8: the port of WE is looked at first, that of WD next. -/
theorem stepRunsTheWindowRequest : Obligations.StepRunsTheWindowRequest := by
  intro s r
  refine ⟨fun hwe => ?_, fun hwe hwd => ?_⟩
  · simp only [step, State.fetch, hwe]
  · simp only [step, State.fetch, hwe, hwd]

/-- R174: a quiet step takes the host's command. -/
theorem step_command {s : State} {w : BitVec 32} {data : List Byte} {rest : List HostInput} (hq : s.quiet)
    (hp : s.port.pending = .command w data :: rest) :
    step s = exec (decodeCmd w data) (s.setPort { s.port with pending := rest }) := by
  obtain ⟨hwe, hwd⟩ := hq
  simp only [step, State.fetch, hwe, hwd, hp]

/-- Settles O41: by its fields the word decodes to ILLEGAL_CMD, which is answered and no more. -/
theorem illegalWordIsOnlyAnswered : Obligations.IllegalWordIsOnlyAnswered := by
  intro s w data rest hq hp hw
  rw [step_command hq hp, decodeCmd_illegal ((isIllegal_fields_iff w).2 hw)]
  rfl

/-! ### The wire units (R71 to R75) -/

/-- Wire bytes that are one unit and no more, by the kind the flag register selects. -/
inductive WireUnit : WireKind → List Byte → Instr → Prop
  | flags (t : Byte) : WireUnit .flagByte [t] (.flags t)
  | lit (d : Byte) : WireUnit .literal [d] (.lit d)
  | matchTok (b0 b1 : Byte) : WireUnit .matching [b0, b1] (.matchTok (matchOffset b0 b1) (matchLength b1))

theorem decodeWire_whole {k : WireKind} {bytes : List Byte} {i : Instr} (h : decodeWire k bytes = .ok (i, [])) :
    WireUnit k bytes i := by
  unfold decodeWire at h
  split at h <;> cases h
  case h_1 => exact .flags _
  case h_2 => exact .lit _
  case h_3 => exact .matchTok _ _

theorem afterRead_byte {s : State} {b : Byte} {rest : List SourceAnswer} (h : s.source.answers = .byte b :: rest) :
    s.afterRead = s.setSource { s.source with answers := rest, pos := s.source.pos + 1 } :=
  congrArg s.setSource (Source.after_byte h)

/-- NEEDFLAGS (R143), then the turn from the loaded register. -/
theorem readTurn_flags {s : State} {t : Byte} (h1 : s.dec.freg = 1) (ha : s.source.answer = .byte t) :
    readTurn s = readTurn (s.afterRead.loadFlags t) := by
  have hne : (s.afterRead.loadFlags t).dec.freg ≠ 1 := loadedFlags_ne_one _ _
  conv_lhs => rw [readTurn, if_pos h1, needFlags, fetchByte_byte ha]
  conv_rhs => rw [readTurn, if_neg hne]

/-- LIT_TOKEN (R145) and one shift (R147). -/
theorem readTurn_literal {s : State} {d : Byte} (h1 : s.dec.freg ≠ 1) (hbit : s.dec.freg.getLsbD 0 = true)
    (ha : s.source.answer = .byte d) : readTurn s = .goOn (s.afterRead.literal d).shiftFlags := by
  rw [readTurn, if_neg h1, Flow.andThen_goOn, if_pos hbit, litToken, fetchByte_byte ha, Flow.andThen_goOn]

/-- MATCH_TOKEN (R146) and one shift (R147); the replay does not fault, its offset having 12 bits. -/
theorem readTurn_match {s : State} {b0 b1 : Byte} (h1 : s.dec.freg ≠ 1) (hbit : ¬ s.dec.freg.getLsbD 0 = true)
    (ha : s.source.answer = .byte b0) (ha' : s.afterRead.source.answer = .byte b1) :
    readTurn s =
      .goOn (replay (matchLength b1).toNat (matchOffset b0 b1).toNat s.afterRead.afterRead).state.shiftFlags := by
  rw [readTurn, if_neg h1, Flow.andThen_goOn, if_neg hbit, matchToken, fetchByte_byte ha, fetchByte_byte ha',
    replay_eq _ (matchOffset_lt b0 b1), Flow.andThen_goOn, Flow.state_goOn]

/-- Settles O9, by the kind the flag register selects: the turn takes the unit's bytes from the source and does what
exec of the unit does. -/
theorem readTurnRunsTheDecodedUnit : Obligations.ReadTurnRunsTheDecodedUnit := by
  intro s bytes rest i hs hd
  by_cases h1 : s.dec.freg = 1
  · rw [wireKind, if_pos h1] at hd
    cases decodeWire_whole hd with
    | flags t =>
      refine ⟨_, rfl, ?_⟩
      rw [if_pos h1, readTurn_flags h1 (Source.answer_cons hs), afterRead_byte hs]
      rfl
  by_cases hbit : s.dec.freg.getLsbD 0 = true
  · rw [wireKind, if_neg h1, if_pos hbit] at hd
    cases decodeWire_whole hd with
    | lit d =>
      refine ⟨_, rfl, ?_⟩
      rw [if_neg h1, readTurn_literal h1 hbit (Source.answer_cons hs), afterRead_byte hs]
      rfl
  · rw [wireKind, if_neg h1, if_neg hbit] at hd
    cases decodeWire_whole hd with
    | matchTok b0 b1 =>
      have hs' : s.afterRead.source.answers = .byte b1 :: rest := by rw [afterRead_byte hs]; rfl
      refine ⟨_, rfl, ?_⟩
      rw [if_neg h1, readTurn_match h1 hbit (Source.answer_cons hs) (Source.answer_cons hs'), afterRead_byte hs',
        afterRead_byte hs]
      rfl

/-- Wire bit `i` of a flag byte (R84). -/
theorem wireFlags_bit (reversed : Bool) (f : Byte) {i : Nat} (hi : i < 8) :
    (wireFlags reversed f).getLsbD i = f.getLsbD (if reversed then 7 - i else i) := by
  cases reversed with
  | false => rfl
  | true =>
    show f.reverse.getLsbD i = f.getLsbD (7 - i)
    rw [BitVec.getLsbD_reverse, BitVec.getMsbD_eq_getLsbD, decide_eq_true hi, Bool.true_and]

/-- R143: below the sentinel the loaded register is the flag byte. -/
theorem loadedFlags_bit (cfg : Config) (f : Byte) {i : Nat} (hi : i < 8) :
    (loadedFlags cfg f).getLsbD i = (wireFlags cfg.flagReversed f).getLsbD i := by
  have hmask : (0x100 : BitVec 9).getLsbD i = false := by revert i; decide
  rw [loadedFlags, BitVec.getLsbD_or, hmask, Bool.false_or, BitVec.getLsbD_setWidth, decide_eq_true (by omega),
    Bool.true_and]

/-- Settles O30: the register FLAGS loads, bit by bit. -/
theorem flagsLoadsSentinelAndBits : Obligations.FlagsLoadsSentinelAndBits := fun f s =>
  ⟨loadedFlags s.cfg f, rfl, loadedFlags_sentinel s.cfg f, fun _ hi =>
    (loadedFlags_bit s.cfg f hi).trans (wireFlags_bit _ f hi)⟩

/-- R142, R145: where LIT's byte goes. -/
theorem literal_eq (d : Byte) (s : State) :
    s.literal d = if s.read.out.length < s.read.cap
      then (s.setRead { s.read with out := s.read.out ++ [d] }).setWd (s.wd.writeByte d)
      else (s.setDec { s.dec with carry := s.dec.carry ++ [d] }).setWd (s.wd.writeByte d) := by
  unfold State.literal State.emit
  split <;> rfl

/-- Settles O31: EMIT puts the byte in the buffer or the carry, WIN_WRITE in `WD`. -/
theorem litEmitsAndWritesItsByte : Obligations.LitEmitsAndWritesItsByte := by
  intro d s hs
  have hwf := Window.stored_wf hs
  exact ⟨s.wd.writeByte d, congrArg _ (literal_eq d s), Memory.read_write_same hwf _ _,
    fun _ ha => Memory.read_write_ne hwf _ ha, index_succ_toNat _, Window.writeByte_fill _ _⟩

/-! ### The blocks on the sink (R83) -/

/-- From `k` to `k'` a sink has only been given blocks of 2 to 17 bytes. -/
def Sink.Grows (k k' : Sink) : Prop :=
  ∃ blocks, k'.blocks = k.blocks ++ blocks ∧ ∀ bl ∈ blocks, 2 ≤ bl.length ∧ bl.length ≤ 17

theorem Sink.Grows.refl (k : Sink) : k.Grows k := ⟨[], by simp, by simp⟩

/-- What ends a command on the host's port adds nothing to the sink. -/
theorem Sink.Grows.finish {k : Sink} {F : Flow} {f : State → State} (h : k.Grows F.state.sink)
    (hf : ∀ s, (f s).sink = s.sink) : k.Grows (F.finish f).sink := by
  cases F with
  | goOn s => exact (hf s).symm ▸ h
  | ended s => exact h

/-- R125, R128: a block that holds a token is put on the sink, or on a sink failure is not. -/
theorem flushOrFail_grows {s : State} (h : s.enc.Inv) (h0 : s.enc.ntok ≠ 0) :
    s.sink.Grows (flushOrFail s).state.sink := by
  cases ha : s.sink.answer s.block with
  | ok =>
    rw [flushOrFail_ok ha]
    refine ⟨[s.block], Sink.after_blocks_ok ha, fun bl hbl => ?_⟩
    have hlen := h.full.block_length h0
    rw [List.mem_singleton.1 hbl, State.block, List.length_cons]
    omega
  | err e =>
    rw [flushOrFail_err ha]
    exact ⟨[], by rw [List.append_nil]; exact Sink.after_blocks_err ha, by simp⟩

theorem EncRun.grows {s : State} {data : List Byte} {F : Flow} (h : EncRun s data F) (hi : s.enc.Inv)
    (ho : s.enc.st = .ok) : s.sink.Grows F.state.sink := by
  cases h with
  | done e k blocks _ hblocks hinv | failed n e k blocks err _ _ hblocks hinv =>
    exact ⟨blocks, hblocks, (hinv hi ho).2⟩

theorem execEncWrite_grows {n : BitVec 16} {data : List Byte} {s t : State} (hi : s.enc.Inv)
    (h : execEncWrite n data s = .next t) : s.sink.Grows t.sink := by
  obtain ⟨hl, ⟨_, rfl⟩ | ⟨ho, _⟩⟩ := encWrite_cases h
  · exact .refl _
  · rw [execEncWrite, if_neg (by simpa using hl), if_neg (by simpa using ho)] at h
    cases h
    exact ((encLoop_run _ _ _ (le_refl _)).grows hi ho).finish fun _ => rfl

theorem execEncClose_grows {s t : State} (hi : s.enc.Inv) (h : execEncClose s = .next t) : s.sink.Grows t.sink := by
  obtain ⟨_, rfl⟩ | ⟨ho, _⟩ := encClose_cases h
  · exact .refl _
  · rw [execEncClose, if_neg (by simpa using ho)] at h
    cases h
    refine Sink.Grows.finish ?_ fun _ => rfl
    split
    case isTrue hpos => exact flushOrFail_grows hi fun h0 => by simp [h0] at hpos
    case isFalse => exact .refl _

/-- Settles O27, command by command. -/
theorem sinkBlocksAreTwoToSeventeenBytes : Obligations.SinkBlocksAreTwoToSeventeenBytes := by
  rintro i s t (rfl | ⟨n, data, rfl⟩) hi h
  · exact execEncClose_grows hi h
  · exact execEncWrite_grows hi h

end Sys2Proof.Machine
end

section
/-! SUPPORT. Proofs of the window family (40_window.md): what WIN_FIND answers (R100, R101, R107), what WIN_READ,
WIN_WRITE and WIN_WRITES do (R102 to R104), and what the replay of a Match produces (R105). -/

namespace Sys2Proof.Machine

open Sys2Proof

/-! ### The meaning of the operations, as exec has it -/

@[simp] theorem exec_winRead (x : WinId) (idx : Nat) (s : State) :
    exec (.winRead x idx) s = execWinRead x idx s := rfl

@[simp] theorem exec_winWrite (x : WinId) (b : Byte) (s : State) :
    exec (.winWrite x b) s = execWinWrite x b s := rfl

@[simp] theorem exec_winWrites (x : WinId) (bs : List Byte) (s : State) :
    exec (.winWrites x bs) s = execWinWrites x bs s := rfl

@[simp] theorem exec_matchTok (off : Index) (len : BitVec 5) (s : State) :
    exec (.matchTok off len) s = execMatchTok off len s := rfl

/-! ### What WIN_FIND answers (R100, R101) -/

theorem execWinFind_next (x : WinId) {la : List Byte} (hla : la.length ≤ maxLen) (s : State) :
    execWinFind x la s =
      .next (s.setResult x (some (.found (BitVec.ofNat 5 ((s.window x).find la).len)
        (BitVec.ofNat 12 ((s.window x).find la).off)))) := by
  rw [execWinFind, if_neg (not_lt.2 hla)]

section FoundAt
variable {x : Window} {la : List Byte} {f : Found} {d L0 : Nat}

theorem Window.FoundAt.distance_off (h : x.FoundAt la f d L0) : x.distance f.off = d := by
  rw [h.off_eq, x.distance_candidate h.dist_pos (h.dist_le.trans x.fill.is_le)]

/-- The length before the extension: a match is extended past its distance or not at all. -/
theorem Window.FoundAt.unextended_len_eq (h : x.FoundAt la f d L0) : L0 = min f.len d := by
  obtain ⟨-, hle, -⟩ := h.agrees
  rcases hle.lt_or_eq with hlt | rfl
  · rw [h.unextended hlt, min_eq_left hle]
  · rw [min_eq_right h.le_len]

/-- Below the distance, the bytes are those of the Window. -/
theorem Window.FoundAt.bytes_of_window (h : x.FoundAt la f d L0) {j : Nat} (hj : j < min f.len d) :
    la[j]? = some (x.buf.read ((f.off + j) % W)) := by
  rw [h.cyclic j (by omega), h.off_eq, Nat.mod_eq_of_lt (show j < d by omega)]

/-- From the distance on, the bytes repeat with the distance as period. -/
theorem Window.FoundAt.bytes_repeat (h : x.FoundAt la f d L0) {j : Nat} (hd : d ≤ j) (hj : j < f.len) :
    la[j]? = la[j - d]? := by
  rw [h.cyclic j hj, h.cyclic (j - d) (by omega), Nat.mod_eq_sub_mod hd]

/-- A match that reaches the write pointer stops where the repetition stops. -/
theorem Window.FoundAt.repetition_ends (h : x.FoundAt la f d L0) (hd : d ≤ f.len) (hla : f.len < la.length) :
    la[f.len]? ≠ la[f.len - d]? := by
  have hpos := h.dist_pos
  have hL0 : L0 = d := by rw [h.unextended_len_eq, min_eq_right hd]
  rw [h.cyclic (f.len - d) (by omega), ← Nat.mod_eq_sub_mod hd]
  exact h.maximal hL0 hla

end FoundAt

/-- Settles O14, by the two answers of the search: nothing agrees, or a match found at a distance. -/
theorem winFindAnswersTheLongestMatch : Obligations.WinFindAnswersTheLongestMatch := by
  intro x la s hla
  refine ⟨((s.window x).find la).len, ((s.window x).find la).off, execWinFind_next x hla s,
    (s.window x).find_len_le hla, (s.window x).find_off_lt hla, ?_⟩
  rcases (s.window x).find_spec hla with ⟨hf, hnone⟩ | ⟨d, L0, h⟩
  · rw [hf]
    exact ⟨fun _ => rfl, fun _ => hnone, fun hlt => absurd hlt (lt_irrefl 0)⟩
  · have hlen := h.pos.trans_le h.le_len
    refine ⟨fun h0 => absurd h0 hlen.ne', fun h0 => absurd h0 hlen.ne', fun _ => ?_⟩
    rw [h.distance_off]
    exact ⟨h.dist_pos, h.dist_le, fun _ => h.bytes_of_window, fun _ => h.bytes_repeat,
      h.unextended_len_eq ▸ h.best, h.repetition_ends⟩

/-! ### WIN_READ (R102) -/

/-- Settles O16, by the range check of WIN_READ. -/
theorem winReadGivesTheByteOrFaults : Obligations.WinReadGivesTheByteOrFaults := by
  intro x idx s
  rw [exec_winRead, execWinRead]
  constructor
  · intro h
    rw [Window.readByte_lt _ h]
  · intro h
    rw [Window.readByte_ge _ h]

/-! ### WIN_WRITE and WIN_WRITES (R103, R104) -/

theorem Window.read_writeByte_same {x : Window} (h : x.stored = true) (b : Byte) :
    (x.writeByte b).buf.read x.ptr.toNat = b :=
  Memory.read_write_same (Window.stored_wf h) _ _

theorem Window.read_writeByte_ne {x : Window} (h : x.stored = true) (b : Byte) {a : Nat} (ha : a ≠ x.ptr.toNat) :
    (x.writeByte b).buf.read a = x.buf.read a :=
  Memory.read_write_ne (Window.stored_wf h) b ha

/-- R104: WIN_WRITES is WIN_WRITE of the first byte, then WIN_WRITES of the rest. -/
theorem execWinWrites_cons (x : WinId) (b : Byte) (cs : List Byte) {s t : State} (h : execWinWrite x b s = .next t) :
    execWinWrites x (b :: cs) s = execWinWrites x cs t := by
  cases h
  cases x <;> rfl

/-- Settles O17, from the laws of one write to the storage. -/
theorem winWriteStoresAtThePointer : Obligations.WinWriteStoresAtThePointer := by
  intro x b s hs
  exact ⟨(s.window x).writeByte b, none, rfl, Window.stored_writeByte hs b, Window.read_writeByte_same hs b,
    fun _ => Window.read_writeByte_ne hs b, index_succ_toNat _, rfl⟩

/-- Settles O18, from the laws of a sequence of writes; the step-by-step law is the operation's own recursion. -/
theorem winWritesStoresInOrder : Obligations.WinWritesStoresInOrder := by
  intro x bs s hs
  refine ⟨(s.window x).writeBytes bs, none, rfl, Window.stored_writeBytes hs bs, fun hW i hi => ?_,
    Window.read_writeBytes_other hs bs, Window.writeBytes_ptr _ bs, Window.writeBytes_fill _ bs, ?_, ?_⟩
  · rw [Window.read_writeBytes_own hs bs hW i hi, List.getElem?_eq_getElem hi]
  · rintro b cs rfl t ht
    exact execWinWrites_cons x b cs ht
  · rintro rfl
    rfl

/-! ### The replay of a Match (R105) -/

/-- A Match does not fault, its offset having 12 bits: its bytes are delivered one after the other. -/
theorem execMatchTok_eq (off : Index) (len : BitVec 5) (s : State) :
    execMatchTok off len s = .next ((s.wd.replayed len.toNat off.toNat).foldl State.literal s) := by
  rw [execMatchTok, replay_eq _ (index_toNat_lt off), Flow.state_goOn]

/-- R105, by the offset: the Window's bytes below the distance, the replay's own from there on. -/
theorem Window.replayed_getElem? {x : Window} (hx : x.stored = true) {n off : Nat} (hn : n ≤ W) (hoff : off < W)
    {j : Nat} (hj : j < n) :
    (x.replayed n off)[j]? =
      if j < x.distance off then some (x.buf.read ((off + j) % W))
      else (x.replayed n off)[j - x.distance off]? := by
  have h := Window.replayed_spec hx (x.distance_pos off) (x.distance_le off) hn j hj
  simp only [x.candidate_distance hoff] at h
  rw [List.getElem?_eq_getElem (by simpa using hj), h]
  split
  · rfl
  · rw [List.getElem?_eq_getElem]

/-- R105: the replay of the Match that WIN_FIND answers is what WIN_FIND matched. -/
theorem Window.replayed_of_find {x : Window} (hx : x.stored = true) {la : List Byte} (hla : la.length ≤ maxLen)
    (hpos : 0 < (x.find la).len) : x.replayed (x.find la).len (x.find la).off = la.take (x.find la).len := by
  rcases x.find_spec hla with ⟨hf, _⟩ | ⟨d, L0, h⟩
  · exact absurd hpos (by simp [hf])
  · exact Window.replayed_found hx hla h

/-- Settles O19: the bytes are the Window's replay, delivered as decoded bytes are. -/
theorem matchReplaysEarlierBytes : Obligations.MatchReplaysEarlierBytes := by
  intro off len s hs hlen
  refine ⟨s.wd.replayed len.toNat off.toNat, ?_, Window.replayed_length _ _ _, fun j hj => ?_,
    fun la hla hpos hfind => ?_⟩
  · rw [exec_matchTok, execMatchTok_eq, State.literals_eq]
  · exact Window.replayed_getElem? hs (hlen.trans (by decide)) (index_toNat_lt off) hj
  · simpa [hfind] using Window.replayed_of_find hs hla (by rwa [hfind])

end Sys2Proof.Machine
end

section
/-! SUPPORT. Proofs of the encoder family (41_encoder.md): the token a decision stages (R121 to R124), the flag byte
(R126), and each Encoder command by the state it finds the Encoder in (R120, R127, R129), a run of ENC_WRITE's loop
taken from the lemma that says what it comes to. -/

namespace Sys2Proof.Machine

open Sys2Proof

/-! ### A token decision (R121 to R124, R132) -/

theorem Window.find_distance_le {x : Window} {la : List Byte} (hla : la.length ≤ maxLen)
    (hpos : 0 < (x.find la).len) : x.distance (x.find la).off ≤ x.fill.val := by
  rcases x.find_spec hla with ⟨hf, -⟩ | ⟨d, L0, h⟩
  · simp [hf] at hpos
  · exact h.distance_off ▸ h.dist_le

theorem matchLow_ofNat (off : Nat) : matchLow (BitVec.ofNat 12 off) = BitVec.ofNat 8 (off % 256) := by
  apply BitVec.eq_of_toNat_eq
  rw [matchLow_toNat, BitVec.toNat_ofNat, BitVec.toNat_ofNat]
  omega

theorem matchHigh_ofNat {off len : Nat} (hoff : off < W) (hlo : minLen ≤ len) (hhi : len ≤ maxLen) :
    matchHigh (BitVec.ofNat 12 off) (BitVec.ofNat 5 len) = BitVec.ofNat 8 (off / 256 * 16 + (len - 3)) := by
  have hlen : (BitVec.ofNat 5 len).toNat = len := Nat.mod_eq_of_lt (hhi.trans_lt (by decide))
  apply BitVec.eq_of_toNat_eq
  rw [matchHigh_toNat _ (hlen.symm ▸ hlo) (hlen.symm ▸ hhi), hlen, BitVec.toNat_ofNat, BitVec.toNat_ofNat]
  simp only [W, maxLen] at hoff hhi
  omega

/-- Settles O21, by the two tokens a decision can stage. -/
theorem tokenDecisionStagesWhatItConsumes : Obligations.TokenDecisionStagesWhatItConsumes := by
  intro b rest s hn
  rcases encStep_cases b rest s with ⟨hstep, hlt⟩ | ⟨f, hf, hlo, hhi, hle, hstep⟩
  · refine ⟨1, s.enc.withLit b, hstep, le_refl _, by omega, rfl, rfl, ntok_succ _ hn, fun i hi hne => ?_,
      .inl ⟨rfl, hlt, ?_, rfl⟩⟩
    · exact (literalFlag_bit hn _ hi).trans (if_neg hne)
    · exact (literalFlag_bit hn _ hn).trans (if_pos rfl)
  · have hla : ((b :: rest).take maxLen).length ≤ maxLen := List.length_take_le _ _
    have hoff := s.we.find_off_lt hla
    have hdist := Window.find_distance_le (x := s.we) hla
    rw [hf] at hoff hdist
    refine ⟨f.len, s.enc.withMatch (BitVec.ofNat 12 f.off) (BitVec.ofNat 5 f.len), hstep,
      le_trans (by decide) hlo, hle, rfl, rfl, ntok_succ _ hn, fun _ _ _ => rfl,
      .inr ⟨f.off, hlo, hhi, hoff, hdist (lt_of_lt_of_le (by decide) hlo), hf, rfl, ?_⟩⟩
    rw [Encoder.withMatch, matchLow_ofNat, matchHigh_ofNat hoff hlo hhi]

/-! ### The flag byte (R126) -/

theorem padFlags_pad (f : BitVec 8) {n : BitVec 4} {i : Nat} (hn : n.toNat ≤ i) (hi : i < 8) :
    (padFlags f n).getLsbD i = true := by
  have hones : ∀ j, j < 8 → (0xFF : BitVec 8).getLsbD j = true := by decide
  rw [padFlags, BitVec.getLsbD_or, BitVec.getLsbD_shiftLeft, hones _ (by omega)]
  simp [hi, hn]

/-- A full block has no pad bits. -/
theorem padFlags_eight (f : BitVec 8) : padFlags f 8 = f :=
  BitVec.eq_of_getLsbD_eq fun _ hi => padFlags_bit f (n := 8) hi

/-- Settles O28: the bit's place in the order of the wire, then token bit or pad bit. -/
theorem flagBytePadsWithOnes : Obligations.FlagBytePadsWithOnes := by
  intro cfg e i hi
  have hwire : (flagByte cfg e).getLsbD (if cfg.flagReversed then 7 - i else i) =
      (padFlags e.flags e.ntok).getLsbD i := by
    rw [flagByte, wireFlags_bit _ _ (by split <;> omega)]
    congr 1
    split <;> omega
  rw [hwire]
  split
  case isTrue h => exact padFlags_bit _ h
  case isFalse h => exact padFlags_pad _ (not_lt.1 h) hi

/-! ### A flush, by the answer of its sink write (R125, R128) -/

theorem flushOrFail_of_sinkWrite_ok {s t : State} (h : s.sinkWrite s.block = (.ok, t)) :
    flushOrFail s = .goOn (t.setEnc s.enc.emptied) := by
  obtain ⟨ha, rfl⟩ := Prod.mk.inj h
  exact flushOrFail_ok ha

theorem flushOrFail_of_sinkWrite_err {s t : State} {e : ErrCode} (h : s.sinkWrite s.block = (.err e, t)) :
    flushOrFail s =
      .ended ((t.setEnc { s.enc with st := .sinkErr, info := e }).answered
        { status := .sinkErr, count := 0, out := [], info := some e }) := by
  obtain ⟨ha, rfl⟩ := Prod.mk.inj h
  exact flushOrFail_err ha

/-! ### The Encoder commands, by the Encoder's status (R120, R127, R129) -/

section EncoderCommands
variable {n : BitVec 16} {data : List Byte} {s : State}

theorem execEncWrite_open (hl : data.length = n.toNat) (ho : s.enc.st = .ok) :
    execEncWrite n data s =
      .next ((encLoop data.length data s).finish fun t =>
        t.answered { status := .ok, count := n, out := [], info := none }) := by
  rw [execEncWrite, if_neg (not_not.2 hl), if_neg (not_not.2 ho)]
  rfl

theorem execEncWrite_sticky (hl : data.length = n.toNat) (ho : s.enc.st ≠ .ok) :
    execEncWrite n data s = .next (s.answered s.enc.sticky) := by
  rw [execEncWrite, if_neg (not_not.2 hl), if_pos ho]
  rfl

theorem execEncClose_sticky (ho : s.enc.st ≠ .ok) : execEncClose s = .next (s.answered s.enc.sticky) :=
  if_pos ho

theorem execEncClose_empty (ho : s.enc.st = .ok) (h0 : s.enc.ntok = 0) :
    execEncClose s = .next ((s.setEnc { s.enc with st := .closed }).answered (Response.plain .ok)) := by
  rw [execEncClose, if_neg (not_not.2 ho), if_neg (by simp [h0])]
  rfl

theorem execEncClose_pending (ho : s.enc.st = .ok) (h0 : s.enc.ntok ≠ 0) :
    execEncClose s =
      .next ((flushOrFail s).finish fun t =>
        (t.setEnc { t.enc with st := .closed }).answered (Response.plain .ok)) := by
  have hpos : 0 < s.enc.ntok := (BitVec.pos_iff_ne_zero _).2 h0
  rw [execEncClose, if_neg (not_not.2 ho), if_pos hpos]
  rfl

end EncoderCommands

theorem execDecRead_sticky (cap : BitVec 16) {s : State} (ho : s.dec.st ≠ .ok) :
    execDecRead cap s = .next (s.answered s.dec.sticky) :=
  if_pos ho

/-- Settles O40: both Encoder commands give the sticky answer, written out for the two statuses that are not open. -/
theorem stickyUnitsAnswerTheirStatus : Obligations.StickyUnitsAnswerTheirStatus := by
  refine ⟨fun n data s hl ho => ?_, fun cap s ho => execDecRead_sticky cap ho⟩
  rw [exec_encWrite, exec_encClose, execEncWrite_sticky hl ho, execEncClose_sticky ho]
  refine ⟨rfl, ?_⟩
  cases hst : s.enc.st with
  | ok => exact absurd hst ho
  | closed => simp [Encoder.sticky, hst, EncStatus.status]
  | sinkErr => simp [Encoder.sticky, hst, EncStatus.status]

/-- Settles O29: the sticky answer, the empty block, and a flush by the sink's answer. -/
theorem encCloseFlushesAndCloses : Obligations.EncCloseFlushesAndCloses := by
  refine fun s => ⟨execEncClose_sticky, execEncClose_empty, fun a t ho h0 ha => ?_⟩
  rw [exec_encClose, execEncClose_pending ho h0]
  constructor
  · rintro rfl
    rw [flushOrFail_of_sinkWrite_ok ha]
    rfl
  · rintro err rfl
    rw [flushOrFail_of_sinkWrite_err ha]
    rfl

/-! ### ENC_WRITE, turn by turn (R120) -/

/-- Settles O22: the loop's own recursion, with the bound of the rest of the data, which is enough. -/
theorem encWriteTakesATokenATurn : Obligations.EncWriteTakesATokenATurn := by
  refine ⟨fun n data s hl ho => execEncWrite_open hl ho, fun k s => ?_, fun k b rest s t c hk ht => ?_⟩
  · cases k <;> rfl
  · obtain ⟨k, rfl⟩ := Nat.exists_eq_add_one_of_ne_zero (Nat.ne_zero_of_lt hk)
    obtain ⟨hpos, -⟩ := encStep_consumes b rest s
    rw [encLoop_succ]
    rw [ht] at hpos ⊢
    congr 1
    funext u
    exact encLoop_fuel _ _ _ _ (by rw [List.length_drop, List.length_cons]; omega) (le_refl _)

/-! ### ENC_WRITE of any data (R120, R124, R128) -/

/-- Settles O25, by what the loop comes to: all of the data taken, or a sink failure after the first bytes of it. -/
theorem encWriteAnswersAndConsumesAPrefix : Obligations.EncWriteAnswersAndConsumesAPrefix := by
  intro n data s hl
  rw [exec_encWrite]
  by_cases ho : s.enc.st = .ok
  · have hrun := encLoop_run data.length data s (le_refl _)
    rw [execEncWrite_open hl ho]
    generalize encLoop data.length data s = F at hrun ⊢
    cases hrun with
    | done e k blocks hst hblocks =>
      exact ⟨_, _, data.length, blocks, rfl, rfl, le_refl _, by rw [List.take_length]; rfl, hblocks,
        fun _ => ⟨rfl, rfl⟩, fun h => absurd (hst.trans ho) h, fun h => absurd ho h, ⟨rfl, rfl, rfl, rfl, rfl⟩, rfl,
        rfl⟩
    | failed m e k blocks err hm _ hblocks =>
      exact ⟨_, _, m, blocks, rfl, rfl, hm, rfl, hblocks, nofun, fun _ => rfl, fun h => absurd ho h,
        ⟨rfl, rfl, rfl, rfl, rfl⟩, rfl, rfl⟩
  · exact ⟨_, s.enc.sticky, 0, [], execEncWrite_sticky hl ho, rfl, Nat.zero_le _, rfl, (List.append_nil _).symm,
      fun h => absurd h ho, fun _ => rfl, fun _ => rfl, ⟨rfl, rfl, rfl, rfl, rfl⟩, rfl, rfl⟩

/-- Settles O26: of what the loop comes to, a sink that accepts leaves out the failure. -/
theorem encWriteTakesAllWhenTheSinkAccepts : Obligations.EncWriteTakesAllWhenTheSinkAccepts := by
  intro n data s hl ho hacc
  have hrun := encLoop_run data.length data s (le_refl _)
  rw [exec_encWrite, execEncWrite_open hl ho]
  generalize encLoop data.length data s = F at hrun ⊢
  cases hrun with
  | done e k blocks hst _ hinv => exact ⟨_, rfl, hst.trans ho, fun hi => (hinv hi ho).1, rfl, rfl⟩
  | failed m e k blocks err _ _ _ _ hno => exact absurd hacc hno

/-! ### ENC_WRITE of one byte (R120, R122, R131) -/

/-- The machine with one byte taken as a Literal (R122, R124). -/
def State.withLiteral (s : State) (b : Byte) : State :=
  { s with we := s.we.writeByte b, enc := s.enc.withLit b }

/-- No match of one byte is long enough. -/
theorem encStep_single (b : Byte) (s : State) : encStep b [] s = (1, s.withLiteral b) := by
  rcases encStep_cases b [] s with ⟨h, -⟩ | ⟨f, -, hlo, -, hle, -⟩
  · exact h
  · exact absurd (hlo.trans hle) (by decide)

theorem encLoop_single (b : Byte) (s : State) :
    encLoop 1 [b] s = if s.enc.ntok + 1 = 8 then flushOrFail (s.withLiteral b) else .goOn (s.withLiteral b) := by
  have hend : ∀ F : Flow, F.andThen (encLoop 0 []) = F := fun F => by cases F <;> rfl
  rw [encLoop_succ, encStep_single]
  exact hend _

theorem execEncWrite_single {b : Byte} {s : State} (ho : s.enc.st = .ok) :
    execEncWrite 1 [b] s =
      .next ((if s.enc.ntok + 1 = 8 then flushOrFail (s.withLiteral b) else .goOn (s.withLiteral b)).finish fun t =>
        t.answered { status := .ok, count := 1, out := [], info := none }) := by
  rw [← encLoop_single]
  exact execEncWrite_open rfl ho

theorem literalFlag_eq (f : BitVec 8) (n : BitVec 4) : literalFlag f n = f ||| BitVec.ofNat 8 (2 ^ n.toNat) := by
  rw [literalFlag]
  congr 1
  apply BitVec.eq_of_toNat_eq
  simp [Nat.shiftLeft_eq]

/-- Settles O23: the Literal is not the eighth token. -/
theorem oneByteWriteIsALiteral : Obligations.OneByteWriteIsALiteral := by
  intro b s ho hn
  have hntok : s.enc.ntok + 1 ≠ 8 := fun h => by
    have hsucc := ntok_succ s.enc.ntok (hn.trans (by decide))
    rw [h] at hsucc
    change 8 = _ at hsucc
    omega
  rw [exec_encWrite, execEncWrite_single ho, if_neg hntok, Flow.finish_goOn, ← literalFlag_eq]
  rfl

/-- The Encoder with an eighth token, a Literal. -/
theorem Encoder.withLit_eighth {e : Encoder} (h7 : e.ntok = 7) (b : Byte) :
    e.withLit b = { e with flags := e.flags ||| 0x80, ntok := 8, stage := e.stage ++ [b] } := by
  rw [Encoder.withLit, h7]
  rfl

/-- Settles O24: the Literal is the eighth token, and its flush is decided by the sink. -/
theorem eighthTokenFlushesTheBlock : Obligations.EighthTokenFlushesTheBlock := by
  intro b s t a e ho h7 he ht
  have h8 : (s.enc.withLit b).ntok = 8 := by rw [Encoder.withLit_eighth h7]
  have hblock : (s.withLiteral b).block =
      wireFlags s.cfg.flagReversed (s.enc.withLit b).flags :: (s.enc.withLit b).stage := by
    rw [State.block, flagByte, State.withLiteral, h8, padFlags_eight]
  rw [← Encoder.withLit_eighth h7] at he
  subst he
  rw [← hblock] at ht
  rw [exec_encWrite, execEncWrite_single ho, if_pos (by rw [h7]; rfl)]
  constructor
  · rintro rfl
    rw [flushOrFail_of_sinkWrite_ok (s := s.withLiteral b) ht]
    rfl
  · rintro err rfl
    rw [flushOrFail_of_sinkWrite_err (s := s.withLiteral b) ht]
    rfl

end Sys2Proof.Machine
end

section
/-! SUPPORT. Proofs of the decoder family (42_decoder.md): DEC_READ turn by turn (R140), what a whole DEC_READ delivers
and how it ends (R141 to R149, R152), that reads may be split (R153), and DEC_CLOSE (R151). A DEC_READ is the turns it
pulls from the source and one of three ends; each statement about it goes through the state those leave. -/

namespace Sys2Proof.Machine

open Sys2Proof

@[simp] theorem exec_decClose (s : State) : exec .decClose s = execDecClose s := rfl

/-! ### The ends of a DEC_READ (R140, R148, R149) -/

/-- How a DEC_READ of an open Decoder ends: at its capacity, at the end of the source, or at a source failure. -/
inductive ReadEnd where
  | full
  | endOfSource
  | sourceErr (e : ErrCode)

/-- What ended the turns. -/
def ReadEnd.stop : ReadEnd → Option Failure
  | .full => none
  | .endOfSource => some .endOfSource
  | .sourceErr e => some (.source e)

/-- The status responded. -/
def ReadEnd.status : ReadEnd → Status
  | .full => .ok
  | .endOfSource => .endOfStream
  | .sourceErr _ => .sourceErr

/-- The error value responded. -/
def ReadEnd.info : ReadEnd → Option ErrCode
  | .full => none
  | .endOfSource => none
  | .sourceErr e => some e

/-- The Decoder's registers, with the status and error registers as the end writes them (R175). -/
def ReadEnd.dec (d : Decoder) : ReadEnd → Decoder
  | .full => d
  | .endOfSource => { d with st := .endOfStream }
  | .sourceErr e => { d with st := .sourceErr, info := e }

@[simp] theorem ReadEnd.dec_carry (x : ReadEnd) (d : Decoder) : (x.dec d).carry = d.carry := by cases x <;> rfl

/-- A Decoder that a read has ended for good answers the same to the next (R154, R172). -/
theorem ReadEnd.dec_sticky {x : ReadEnd} (hx : x ≠ .full) (d : Decoder) :
    (x.dec d).st ≠ .ok ∧ (x.dec d).sticky = { status := x.status, count := 0, out := [], info := x.info } := by
  cases x with
  | full => exact absurd rfl hx
  | endOfSource => exact ⟨nofun, rfl⟩
  | sourceErr e => exact ⟨nofun, rfl⟩

/-- The machine after a DEC_READ of this capacity that pulled `p` and ended at `x`. -/
def State.readDone (s : State) (cap : Nat) (p : Pulled) (x : ReadEnd) : State :=
  ({ s with
    wd := s.wd.writeBytes p.bytes
    dec := x.dec { s.dec with carry := (s.dec.carry ++ p.bytes).drop cap, freg := p.freg }
    source := p.source
    read := .idle } : State).answered
    { status := x.status, count := BitVec.ofNat 16 ((s.dec.carry ++ p.bytes).take cap).length,
      out := (s.dec.carry ++ p.bytes).take cap, info := x.info }

theorem endRead_afterPull (s : State) (cap : Nat) (p : Pulled) (x : ReadEnd) :
    (s.afterPull cap p).endRead x.stop = s.readDone cap p x := by
  cases x <;> rfl

/-- R140: a DEC_READ is the turns it pulls and their end. -/
theorem execDecRead_of_stop {cap : BitVec 16} {s : State} {x : ReadEnd} (ho : s.dec.st = .ok)
    (hx : (s.pulled cap.toNat).stop = x.stop) :
    execDecRead cap s = .next (s.readDone cap.toNat (s.pulled cap.toNat) x) := by
  rw [execDecRead_open cap s ho, hx, endRead_afterPull]

/-- R150: there is no other end, CORRUPT in particular. -/
theorem State.exists_readEnd (s : State) (cap : Nat) : ∃ x : ReadEnd, (s.pulled cap).stop = x.stop := by
  obtain ⟨-, hstop, -⟩ := pull_spec s.cfg cap (cap - s.dec.carry.length) s.dec.freg s.wd s.source (Nat.sub_le _ _)
  change ∀ f, (s.pulled cap).stop = some f → _ at hstop
  cases h : (s.pulled cap).stop with
  | none => exact ⟨.full, rfl⟩
  | some f =>
    rcases (hstop f h).2 with rfl | ⟨e, rfl⟩
    · exact ⟨.endOfSource, rfl⟩
    · exact ⟨.sourceErr e, rfl⟩

/-- R140, R152: carried and decoded bytes together reach the capacity when the read ends at it, and at most 17 bytes
are decoded beyond it. -/
theorem State.pulled_full {s : State} {cap : Nat} {p : Pulled} (hp : s.pulled cap = p) (h : p.stop = none) :
    cap ≤ (s.dec.carry ++ p.bytes).length ∧ p.bytes.length ≤ cap + 17 := by
  subst hp
  obtain ⟨hfull, -, -⟩ := pull_spec s.cfg cap (cap - s.dec.carry.length) s.dec.freg s.wd s.source (Nat.sub_le _ _)
  obtain ⟨hge, hle⟩ : _ ≤ (s.pulled cap).bytes.length ∧ (s.pulled cap).bytes.length ≤ _ := hfull h
  rw [List.length_append]
  omega

/-- R148, R149: they stay below the capacity when the source ends the read. -/
theorem State.pulled_short {s : State} {cap : Nat} {p : Pulled} {f : Failure} (hp : s.pulled cap = p)
    (h : p.stop = some f) : (s.dec.carry ++ p.bytes).length < cap := by
  subst hp
  obtain ⟨-, hshort, -⟩ := pull_spec s.cfg cap (cap - s.dec.carry.length) s.dec.freg s.wd s.source (Nat.sub_le _ _)
  have hlt : (s.pulled cap).bytes.length < _ := (hshort f h).1
  rw [List.length_append]
  omega

theorem ReadEnd.exists_stop {x : ReadEnd} (hx : x ≠ .full) : ∃ f, x.stop = some f := by
  cases x with
  | full => exact absurd rfl hx
  | endOfSource => exact ⟨_, rfl⟩
  | sourceErr e => exact ⟨_, rfl⟩

/-! ### Two reads are one (R153) -/

/-- Turns for `a` bytes that the source ends are all the turns for `a + b`. -/
theorem pull_add_of_stop {cfg : Config} {n a b : Nat} {freg : BitVec 9} {wd : Window} {r : Source} {f : Failure}
    (hn : a + b ≤ n) (h : (pull cfg n a freg wd r).stop = some f) :
    pull cfg n (a + b) freg wd r = pull cfg n a freg wd r := by
  rw [pull_split cfg n a b freg wd r hn]
  generalize pull cfg n a freg wd r = p at h
  obtain ⟨bs, freg', r', stop⟩ := p
  cases h
  rfl

/-- Turns for `a` bytes that nothing ends come first among those for `a + b`. -/
theorem pull_add_of_none {cfg : Config} {n a b : Nat} {freg : BitVec 9} {wd : Window} {r : Source} {p : Pulled}
    (hn : a + b ≤ n) (hp : pull cfg n a freg wd r = p) (h : p.stop = none) :
    pull cfg n (a + b) freg wd r =
      { pull cfg n (a + b - p.bytes.length) p.freg (wd.writeBytes p.bytes) p.source with
        bytes := p.bytes ++ (pull cfg n (a + b - p.bytes.length) p.freg (wd.writeBytes p.bytes) p.source).bytes } := by
  rw [pull_split cfg n a b freg wd r hn, hp]
  obtain ⟨bs, freg', r', stop⟩ := p
  cases h
  rfl

/-- A bound above the capacity cuts nothing off (log 18). -/
theorem State.pulled_eq_pull (s : State) {cap n : Nat} (h : cap ≤ n) :
    s.pulled cap = pull s.cfg n (cap - s.dec.carry.length) s.dec.freg s.wd s.source :=
  pull_fuel _ _ _ _ _ _ _ (Nat.sub_le _ _) ((Nat.sub_le _ _).trans h)

/-- What a greater capacity needs beside a carry of length `c`, as what the smaller needs and the rest. -/
theorem need_add (m n c : Nat) : m + n - c = (m - c) + (m + n - c - (m - c)) := by omega

/-- A source that ends the turns for a capacity leaves no others for a greater one. -/
theorem State.pulled_add_of_stop {s : State} {m : Nat} {f : Failure} (h : (s.pulled m).stop = some f) (n : Nat) :
    s.pulled (m + n) = s.pulled m := by
  rw [s.pulled_eq_pull (Nat.le_add_right m n)] at h ⊢
  rw [State.pulled, need_add]
  exact pull_add_of_stop (by omega) h

/-- Else the turns for the added capacity are those of a second read, which needs what the first has not carried. -/
theorem State.pulled_add_of_full {s : State} {m : Nat} {p : Pulled} (hp : s.pulled m = p) (h : p.stop = none)
    (n : Nat) :
    s.pulled (m + n) =
      { (s.readDone m p .full).pulled n with bytes := p.bytes ++ ((s.readDone m p .full).pulled n).bytes } := by
  obtain ⟨hge, -⟩ := State.pulled_full hp h
  rw [List.length_append] at hge
  have hneed : m + n - s.dec.carry.length - p.bytes.length = n - (s.readDone m p .full).dec.carry.length := by
    show _ = n - ((s.dec.carry ++ p.bytes).drop m).length
    rw [List.length_drop, List.length_append]
    omega
  rw [s.pulled_eq_pull (Nat.le_add_right m n)] at hp
  rw [State.pulled, need_add, pull_add_of_none (by omega) hp h, ← need_add, hneed,
    (s.readDone m p .full).pulled_eq_pull (Nat.le_add_left n m)]
  rfl

/-- What two reads leave and return is what one leaves and returns that pulls the turns of both: the bytes are in one
row, cut at the added capacities. -/
theorem State.readDone_append {s : State} {m : Nat} {p : Pulled} (hge : m ≤ (s.dec.carry ++ p.bytes).length)
    (n : Nat) (q : Pulled) (x : ReadEnd) :
    ((s.readDone m p .full).readDone n q x).dec = (s.readDone (m + n) { q with bytes := p.bytes ++ q.bytes } x).dec ∧
      ((s.readDone m p .full).readDone n q x).wd = (s.readDone (m + n) { q with bytes := p.bytes ++ q.bytes } x).wd ∧
      (s.dec.carry ++ (p.bytes ++ q.bytes)).take (m + n) =
        (s.dec.carry ++ p.bytes).take m ++ ((s.dec.carry ++ p.bytes).drop m ++ q.bytes).take n := by
  have hdrop : ((s.dec.carry ++ p.bytes).drop m ++ q.bytes) = (s.dec.carry ++ (p.bytes ++ q.bytes)).drop m := by
    rw [← List.append_assoc, List.drop_append_of_le_length hge]
  refine ⟨?_, ?_, ?_⟩
  · show x.dec { s.dec with carry := ((s.dec.carry ++ p.bytes).drop m ++ q.bytes).drop n, freg := q.freg } = _
    rw [hdrop, List.drop_drop]
    rfl
  · exact (s.wd.writeBytes_append p.bytes q.bytes).symm
  · rw [hdrop, List.take_add, ← List.append_assoc, List.take_append_of_le_length hge]

/-- A capacity that the bytes do not reach does not show. -/
theorem State.readDone_of_short {s : State} {m n : Nat} {p : Pulled} (hm : (s.dec.carry ++ p.bytes).length ≤ m)
    (hmn : m ≤ n) (x : ReadEnd) : s.readDone n p x = s.readDone m p x := by
  simp only [State.readDone, List.take_of_length_le hm, List.take_of_length_le (hm.trans hmn),
    List.drop_of_length_le hm, List.drop_of_length_le (hm.trans hmn)]

/-- After a read that ended at its capacity, a second takes turns; one read of the added capacities takes the turns of
both and has the end of the second. -/
theorem execDecRead_add_of_full {m n k : BitVec 16} {s : State} {p : Pulled} (ho : s.dec.st = .ok)
    (hk : k.toNat = m.toNat + n.toNat) (hp : s.pulled m.toNat = p) (hfull : p.stop = none) :
    ∃ (q : Pulled) (y : ReadEnd),
      execDecRead n (s.readDone m.toNat p .full) = .next ((s.readDone m.toNat p .full).readDone n.toNat q y) ∧
        execDecRead k s =
          .next (s.readDone (m.toNat + n.toNat) { q with bytes := p.bytes ++ q.bytes } y) := by
  obtain ⟨y, hy⟩ := (s.readDone m.toNat p .full).exists_readEnd n.toNat
  have hsum := State.pulled_add_of_full hp hfull n.toNat
  rw [← hk] at hsum ⊢
  refine ⟨_, y, execDecRead_of_stop ho hy, ?_⟩
  rw [execDecRead_of_stop (x := y) ho (by rw [hsum]; exact hy), hsum]

/-- After a read that the source ended, a second answers that again; one read of the added capacities is the first. -/
theorem execDecRead_add_of_ended {m n k : BitVec 16} {s : State} {x : ReadEnd} (ho : s.dec.st = .ok)
    (hk : k.toNat = m.toNat + n.toNat) (hx : (s.pulled m.toNat).stop = x.stop) (hended : x ≠ .full) :
    execDecRead n (s.readDone m.toNat (s.pulled m.toNat) x) =
        .next ((s.readDone m.toNat (s.pulled m.toNat) x).answered
          { status := x.status, count := 0, out := [], info := x.info }) ∧
      execDecRead k s = .next (s.readDone m.toNat (s.pulled m.toNat) x) := by
  obtain ⟨f, hf⟩ := ReadEnd.exists_stop hended
  have hshort := State.pulled_short rfl (hx.trans hf)
  have hsum := State.pulled_add_of_stop (hx.trans hf) n.toNat
  obtain ⟨hst, hsticky⟩ := ReadEnd.dec_sticky hended (s.readDone m.toNat (s.pulled m.toNat) .full).dec
  constructor
  · rw [← hsticky]
    exact execDecRead_sticky n hst
  · rw [← hk] at hsum
    rw [execDecRead_of_stop ho (hsum ▸ hx), hsum, hk,
      State.readDone_of_short hshort.le (Nat.le_add_right _ _)]

/-- Settles O50, by the end of the first read: at its capacity, and the second takes the turns that are left, or at the
source, and the second gives that answer again. -/
theorem readsMaySplitAnywhere : Obligations.ReadsMaySplitAnywhere := by
  intro m n k s ho hk
  obtain ⟨x, hx⟩ := s.exists_readEnd m.toNat
  have ht := execDecRead_of_stop ho hx
  by_cases hfull : x = .full
  · subst hfull
    obtain ⟨hge, -⟩ := State.pulled_full rfl hx
    obtain ⟨q, y, hu, hv⟩ := execDecRead_add_of_full ho hk rfl hx
    obtain ⟨hdec, hwd, hout⟩ := State.readDone_append hge n.toNat q y
    exact ⟨_, _, _, _, _, _, ht, hu, hv, rfl, List.append_assoc _ _ _, rfl, hout, rfl, rfl, hdec.symm, hwd.symm, rfl⟩
  · obtain ⟨hu, hv⟩ := execDecRead_add_of_ended ho hk hx hfull
    exact ⟨_, _, _, _, _, _, ht, hu, hv, rfl, List.append_assoc _ _ _, rfl, (List.append_nil _).symm, rfl, rfl, rfl,
      rfl, rfl⟩

/-! ### DEC_READ, turn by turn (R140) -/

/-- A token puts at least one byte in the buffer while there is room. -/
theorem readTurn_takes_room {s t : State} (hroom : s.read.out.length < s.read.cap) (h : readTurn s = .goOn t) :
    t.read.cap - t.read.out.length < s.read.cap - s.read.out.length := by
  rw [readTurn_eq] at h
  cases hturn : turnOf s.cfg s.dec.freg s.wd s.source with
  | ends f freg r =>
    rw [hturn] at h
    cases h
  | token bs freg r =>
    obtain ⟨hpos, -⟩ := turnOf_token hturn
    rw [hturn, Turn.run, State.literals_eq] at h
    cases h
    simp only [State.setDec_read, State.setSource_read, List.length_append, List.length_take]
    omega

/-- Settles O33: the loop's own recursion, with the bound of the room that is left, which is enough. -/
theorem decReadTakesTurnsUntilFull : Obligations.DecReadTakesTurnsUntilFull := by
  refine ⟨fun cap s ho => if_neg (not_not.2 ho), fun k s hfull => ?_, fun k s t hroom hk => ?_⟩
  · cases k with
    | zero => rfl
    | succ k => exact if_neg (not_lt.2 hfull)
  · obtain ⟨k, rfl⟩ := Nat.exists_eq_add_one_of_ne_zero (show k ≠ 0 by omega)
    rw [readLoop, if_pos hroom]
    refine ⟨fun h => by rw [h, Flow.finish_ended], fun h => ?_⟩
    have hless := readTurn_takes_room hroom h
    rw [h, Flow.finish_goOn]
    exact readLoop_fuel _ _ _ (by omega) (le_refl _)

/-! ### What a DEC_READ delivers (R140, R148, R149, R152) -/

/-- R140, R148, R149: what each end says of the response, the status and the carry. -/
theorem State.readDone_ends {s : State} {cap : Nat} {x : ReadEnd} (ho : s.dec.st = .ok)
    (hx : (s.pulled cap).stop = x.stop) {t : State} (ht : s.readDone cap (s.pulled cap) x = t) :
    (x.status = .ok ∧ x.info = none ∧ t.dec.st = .ok ∧ ((s.dec.carry ++ (s.pulled cap).bytes).take cap).length = cap) ∨
      (x.status = .endOfStream ∧ x.info = none ∧ t.dec.st = .endOfStream ∧ t.dec.carry = []) ∨
      (x.status = .sourceErr ∧ x.info = some t.dec.info ∧ t.dec.st = .sourceErr ∧ t.dec.carry = []) := by
  subst ht
  cases x with
  | full =>
    obtain ⟨hge, -⟩ := State.pulled_full rfl hx
    exact .inl ⟨rfl, rfl, ho, List.length_take_of_le hge⟩
  | endOfSource => exact .inr (.inl ⟨rfl, rfl, rfl, List.drop_of_length_le (State.pulled_short rfl hx).le⟩)
  | sourceErr e => exact .inr (.inr ⟨rfl, rfl, rfl, List.drop_of_length_le (State.pulled_short rfl hx).le⟩)

theorem State.pulled_bytes_length_le (s : State) (cap : Nat) : (s.pulled cap).bytes.length ≤ cap + 17 := by
  cases h : (s.pulled cap).stop with
  | none => exact (State.pulled_full rfl h).2
  | some f =>
    have hlt := State.pulled_short rfl h
    rw [List.length_append] at hlt
    omega

/-- Settles O34: carried and decoded bytes are in one row, and the capacity cuts it into the bytes returned and those
carried. -/
theorem decReadDeliversWhatItDecodes : Obligations.DecReadDeliversWhatItDecodes := by
  intro cap s ho
  obtain ⟨x, hx⟩ := s.exists_readEnd cap.toNat
  have hout : ((s.dec.carry ++ (s.pulled cap.toNat).bytes).take cap.toNat).length ≤ cap.toNat := List.length_take_le _ _
  refine ⟨_, _, (s.pulled cap.toNat).bytes, execDecRead_of_stop ho hx, rfl, rfl, s.pulled_bytes_length_le _, ?_,
    Nat.mod_eq_of_lt (hout.trans_lt cap.isLt), hout, State.readDone_ends ho hx rfl, ⟨rfl, rfl, rfl, rfl⟩, rfl, rfl, rfl⟩
  show _ = _ ++ (x.dec _).carry
  rw [ReadEnd.dec_carry, List.take_append_drop]

/-! ### DEC_READ from the carry alone (R141, R155) -/

/-- A carry that fills the buffer leaves nothing to pull. -/
theorem State.pulled_of_carry {s : State} {cap : Nat} (h : cap ≤ s.dec.carry.length) :
    s.pulled cap = ⟨[], s.dec.freg, s.source, none⟩ := by
  rw [State.pulled, Nat.sub_eq_zero_of_le h]
  cases cap <;> rfl

/-- Settles O35: no turn is taken. -/
theorem carriedBytesComeFirst : Obligations.CarriedBytesComeFirst := by
  intro cap s ho h
  have hp := State.pulled_of_carry h
  rw [exec_decRead, execDecRead_of_stop (x := .full) ho (by rw [hp]; rfl), hp, State.readDone, List.append_nil,
    List.length_take_of_le h, BitVec.ofNat_toNat, BitVec.setWidth_eq]
  rfl

/-- Settles O36: every carry fills a buffer of capacity 0, with none of its bytes. -/
theorem decReadOfZeroChangesNothing : Obligations.DecReadOfZeroChangesNothing := by
  intro s ho hidle
  rw [carriedBytesComeFirst 0 s ho (Nat.zero_le _), ← hidle]
  rfl

/-! ### DEC_READ whose first turn ends it (R148, R149) -/

/-- With nothing carried, a first turn that the source ends is the whole command: it returns no bytes. -/
theorem execDecRead_of_first_turn {cap : BitVec 16} {s : State} {x : ReadEnd} {f : Failure} {freg : BitVec 9}
    {r : Source} (ho : s.dec.st = .ok) (hcarry : s.dec.carry = []) (hcap : 0 < cap.toNat)
    (ht : turnOf s.cfg s.dec.freg s.wd s.source = .ends f freg r) (hx : x.stop = some f) :
    execDecRead cap s =
      .next (({ s with source := r, dec := x.dec { s.dec with freg := freg }, read := .idle } : State).answered
        { status := x.status, count := 0, out := [], info := x.info }) := by
  obtain ⟨n, hn⟩ := Nat.exists_eq_add_one_of_ne_zero hcap.ne'
  have hp : s.pulled cap.toNat = ⟨[], freg, r, some f⟩ := by
    rw [State.pulled, hcarry, List.length_nil, Nat.sub_zero, hn, pull, ht]
  have htake : (s.dec.carry ++ []).take cap.toNat = [] := by simp [hcarry]
  have hdrop : (s.dec.carry ++ []).drop cap.toNat = s.dec.carry := by simp [hcarry]
  rw [execDecRead_of_stop ho (by rw [hp, hx]), hp, State.readDone, htake, hdrop]
  rfl

theorem turnOf_eof {r : Source} (h : r.answer = .eof) (cfg : Config) (freg : BitVec 9) (wd : Window) :
    turnOf cfg freg wd r = .ends .endOfSource freg r.after := by
  simp only [turnOf, tokenOf, h, ite_self]

theorem turnOf_err {r : Source} {e : ErrCode} (h : r.answer = .err e) (cfg : Config) (freg : BitVec 9)
    (wd : Window) : turnOf cfg freg wd r = .ends (.source e) freg r.after := by
  simp only [turnOf, tokenOf, h, ite_self]

/-- R148: a Match that has its first byte only. -/
theorem turnOf_truncatedMatch {freg : BitVec 9} {r : Source} {b0 : Byte} (hk : wireKind freg = .matching)
    (h : r.answer = .byte b0) (h' : r.after.answer = .eof) (cfg : Config) (wd : Window) :
    turnOf cfg freg wd r = .ends .endOfSource freg r.after.after := by
  unfold wireKind at hk
  split at hk
  case isTrue => cases hk
  case isFalse h1 =>
    split at hk
    case isTrue => cases hk
    case isFalse hbit => simp only [turnOf, if_neg h1, tokenOf, h, if_neg hbit, h']

/-- Settles O37: the first read ends the first turn, whether it is for a flag byte or for a token. -/
theorem firstReadAnswerEndsTheCommand : Obligations.FirstReadAnswerEndsTheCommand := by
  intro cap s rest ho hcarry hcap
  refine ⟨fun ha => ?_, fun e ha => ?_⟩
  · rw [← Source.after_eof ha]
    exact execDecRead_of_first_turn (x := .endOfSource) ho hcarry hcap (turnOf_eof (Source.answer_cons ha) _ _ _) rfl
  · rw [← Source.after_err ha]
    exact execDecRead_of_first_turn (x := .sourceErr e) ho hcarry hcap (turnOf_err (Source.answer_cons ha) _ _ _) rfl

/-- Settles O38: the first turn takes the byte and ends with the source. -/
theorem truncatedMatchProducesNothing : Obligations.TruncatedMatchProducesNothing := by
  intro cap s b0 rest ho hcarry hcap hk ha
  have ha' : s.source.after.answers = .eof :: rest := by rw [Source.after_byte ha]
  have hturn := turnOf_truncatedMatch hk (Source.answer_cons ha) (Source.answer_cons ha') s.cfg s.wd
  rw [Source.after_eof ha', Source.after_byte ha] at hturn
  exact execDecRead_of_first_turn (x := .endOfSource) ho hcarry hcap hturn rfl

/-! ### DEC_CLOSE (R151) -/

theorem execDecClose_live {s : State} (h : s.dec.st.terminal = false) :
    execDecClose s =
      .next (({ s with dec := { s.dec with st := .closed, carry := [] } } : State).answered (Response.plain .ok)) := by
  rw [execDecClose, h]
  rfl

theorem execDecClose_sticky {s : State} (h : s.dec.st.terminal = true) :
    execDecClose s = .next (s.answered s.dec.sticky) :=
  if_pos h

/-- Settles O39, by whether the status is terminal. -/
theorem decCloseClosesAndDropsTheCarry : Obligations.DecCloseClosesAndDropsTheCarry := by
  refine fun s => ⟨fun h => execDecClose_live ?_, fun h => execDecClose_sticky ?_⟩
  · rcases h with h | h <;> simp [h, DecStatus.terminal]
  · rcases h with h | h | h <;> simp [h, DecStatus.terminal]

end Sys2Proof.Machine
end

section
/-! SUPPORT. Proofs of the exceptions family (60_exceptions.md): the step with a command presented (R174), and the
answer to a word that is no command (R185). -/

namespace Sys2Proof.Machine

open Sys2Proof

/-- What the model's `respond` does (R12): one more response, nothing else changed. -/
theorem State.respond_eq_answered (s : State) (r : Response) : s.respond r = s.answered r := rfl

/-- R185: ILLEGAL_CMD is answered, whatever its fields and whatever the units hold. -/
theorem exec_illegalCmd (n : BitVec 16) (rsv : BitVec 12) (op : BitVec 4) (s : State) :
    exec (.illegalCmd n rsv op) s = .next (s.respond (Response.plain .illegalCmd)) := rfl

/-- Settles O7: with both Window ports idle the step takes the first host input, which is the command. -/
theorem stepRunsTheDecodedCommand : Obligations.StepRunsTheDecodedCommand :=
  fun _ _ _ _ hquiet hpending => step_command hquiet hpending

/-- Settles O42: the meaning of ILLEGAL_CMD looks at no register before it responds. -/
theorem illegalCommandCompletes : Obligations.IllegalCommandCompletes := by
  intro n rsv op s
  rw [exec_illegalCmd, State.respond_eq_answered, Response.plain]

end Sys2Proof.Machine
end

section
/-! SUPPORT. Proofs of the reset family (70_reset_and_hazards.md): what a step that takes a reset input does (R190),
the reset values it leaves in one unit and its Window (R191, R192), and the Windows after both resets (R193). -/

namespace Sys2Proof.Machine

open Sys2Proof

/-! ### The reset values (R41) -/

/-- R20: every byte of a reset Window, for a storage that lists none. -/
theorem Window.read_reset (p0 : Index) (a : Nat) : (Window.reset p0).buf.read a = 0x00 := rfl

theorem Encoder.fresh_reset (info : ErrCode) : (Encoder.reset info).fresh := ⟨rfl, rfl, rfl, rfl⟩

theorem Decoder.fresh_reset (info : ErrCode) : (Decoder.reset info).fresh := ⟨rfl, rfl, rfl⟩

/-! ### What a reset leaves unchanged (R190) -/

theorem State.sameDecoder_encReset (s : State) (answers : List SinkAnswer) : s.sameDecoder (s.encReset answers) :=
  ⟨rfl, rfl, rfl, rfl, rfl⟩

theorem State.sameEncoder_decReset (s : State) (answers : List SourceAnswer) : s.sameEncoder (s.decReset answers) :=
  ⟨rfl, rfl, rfl, rfl⟩

/-- ENC_RESET leaves the port of WE idle and that of WD as it was. -/
theorem State.quiet.encReset {s : State} (h : s.quiet) (p : HostPort) (answers : List SinkAnswer) :
    ((s.setPort p).encReset answers).quiet :=
  ⟨rfl, h.right⟩

/-- DEC_RESET leaves the port of WD idle and that of WE as it was. -/
theorem State.quiet.decReset {s : State} (h : s.quiet) (p : HostPort) (answers : List SourceAnswer) :
    ((s.setPort p).decReset answers).quiet :=
  ⟨h.left, rfl⟩

/-! ### The step that takes a reset input (R190) -/

theorem step_encReset {s : State} {answers : List SinkAnswer} {rest : List HostInput} (hq : s.quiet)
    (hp : s.port.pending = .encReset answers :: rest) :
    step s = .next ((s.setPort { s.port with pending := rest }).encReset answers) := by
  obtain ⟨hwe, hwd⟩ := hq
  simp only [step, State.fetch, hwe, hwd, hp]

theorem step_decReset {s : State} {answers : List SourceAnswer} {rest : List HostInput} (hq : s.quiet)
    (hp : s.port.pending = .decReset answers :: rest) :
    step s = .next ((s.setPort { s.port with pending := rest }).decReset answers) := by
  obtain ⟨hwe, hwd⟩ := hq
  simp only [step, State.fetch, hwe, hwd, hp]

/-- Settles O11: a quiet step takes ENC_RESET, whose state has a reset Encoder and Window, and the Decoder's side as
it was. -/
theorem encResetRestoresTheEncoder : Obligations.EncResetRestoresTheEncoder := by
  intro s answers rest hq hp
  obtain ⟨hst, hflags, hntok, hstage⟩ := Encoder.fresh_reset (Config.encInfoDraw s.sink.draws)
  exact ⟨_, step_encReset hq hp, Window.read_reset s.cfg.p0, rfl, rfl, hst, hflags, hntok, hstage, rfl, rfl,
    State.sameDecoder_encReset (s.setPort _) answers, rfl, rfl⟩

/-- Settles O12: a quiet step takes DEC_RESET, whose state has a reset Decoder and Window, and the Encoder's side as
it was. -/
theorem decResetRestoresTheDecoder : Obligations.DecResetRestoresTheDecoder := by
  intro s answers rest hq hp
  obtain ⟨hst, hfreg, hcarry⟩ := Decoder.fresh_reset (Config.decInfoDraw s.source.draws)
  exact ⟨_, step_decReset hq hp, Window.read_reset s.cfg.p0, rfl, rfl, hst, hfreg, hcarry, rfl, rfl,
    State.sameEncoder_decReset (s.setPort _) answers, rfl, rfl, rfl⟩

/-! ### Both resets (R193) -/

/-- After both resets the Windows are the same reset Window, and each unit is fresh. -/
theorem State.alike_after_resets (s : State) (ka : List SinkAnswer) (ra : List SourceAnswer) :
    ((s.encReset ka).decReset ra).we = ((s.encReset ka).decReset ra).wd ∧
      ((s.encReset ka).decReset ra).enc.fresh ∧ ((s.encReset ka).decReset ra).dec.fresh :=
  ⟨rfl, Encoder.fresh_reset _, Decoder.fresh_reset _⟩

/-- The resets touch different registers, so their order does not matter. -/
theorem State.encReset_decReset_comm (s : State) (ka : List SinkAnswer) (ra : List SourceAnswer) :
    (s.decReset ra).encReset ka = (s.encReset ka).decReset ra := rfl

theorem State.setPort_encReset (s : State) (p : HostPort) (ka : List SinkAnswer) :
    (s.encReset ka).setPort p = (s.setPort p).encReset ka := rfl

theorem State.setPort_decReset (s : State) (p : HostPort) (ra : List SourceAnswer) :
    (s.decReset ra).setPort p = (s.setPort p).decReset ra := rfl

/-- Settles O13: the first reset leaves the machine quiet with the second one presented, and in either order the two
steps are both resets of one state. -/
theorem resetsSeedTheWindowsAlike : Obligations.ResetsSeedTheWindowsAlike := by
  intro s t u ka ra rest hq hp ht hu
  obtain hp | hp := hp
  · rw [step_encReset hq hp] at ht
    cases ht
    rw [step_decReset (hq.encReset _ ka) rfl, State.setPort_encReset] at hu
    cases hu
    exact State.alike_after_resets _ ka ra
  · rw [step_decReset hq hp] at ht
    cases ht
    rw [step_encReset (hq.decReset _ ra) rfl, State.setPort_decReset, State.encReset_decReset_comm] at hu
    cases hu
    exact State.alike_after_resets _ ka ra

end Sys2Proof.Machine
end
